-- ==== Sys2Proof/Word.lean ====
section
/-! DEFINITION. The bit widths the block works with and the two fixed sets of names an operation word is made of
(00_scope.md R7, R8; 30_encoding.md R60 to R63). -/

namespace Sys2Proof

/-- One data byte of the stream (30_encoding.md R63). -/
abbrev Byte := BitVec 8

/-- A CRC value or a CRC table entry: 16 bits (00_scope.md R7, CRC_WIDTH). -/
abbrev Word := BitVec 16

/-- The 9-bit input symbol `{in_eos, in_data[7:0]}` (30_encoding.md R63). -/
abbrev Symbol := BitVec 9

/-- The 14-bit operation word `{port, phase, eos, data}` (30_encoding.md R60). -/
abbrev OpWord := BitVec 14

/-- The values of the 3-bit `phase` register (10_state.md R11). All eight values are named, the two
reserved ones too, so that the register holds exactly what 3 bits hold. -/
inductive Phase where
  | init
  | seekStart
  | seekEnd
  | trailer
  | emitWait
  | done
  | reserved6
  | reserved7
deriving DecidableEq, Repr

/-- The agent that acts in a step: the 2-bit `port` field (30_encoding.md R60, R61). -/
inductive Port where
  | internal
  | input
  | pop
  | reset
deriving DecidableEq, Repr

end Sys2Proof
end

