-- ==== Sys2Proof/Config.lean ====
section
/-! DEFINITION. The block's constants and its two OPEN parameters (00_scope.md R7), and the one free value the
model needs (10_state.md R28: what `tdig` holds after RESET). TRAILER_LEN = 6 is the test `tlen = 5` of R16, and
DIGITS = 4 is the size of `tdig`. -/

namespace Sys2Proof

/-- The polynomial of the reflected CRC-16, fixed (00_scope.md R7, 10_state.md R24). -/
def Config.poly : Word := 0xA001

/-- The CRC's initial value (00_scope.md R7). -/
def Config.crcInit : Word := 0x0000

/-- `/`, the start marker (00_scope.md R7). -/
def Config.startMark : Byte := 0x2F

/-- `!`, the terminator (00_scope.md R7). -/
def Config.endMark : Byte := 0x21

/-- The line feed that ends a trailer line (00_scope.md R7). -/
def Config.eol : Byte := 0x0A

/-- The carriage return of the expected trailer. No operation tests it (41_frame_extractor.md R116); the
assembler's CRLF uses it (30_encoding.md R71). -/
def Config.cr : Byte := 0x0D

/-- The number of table entries (00_scope.md R7). -/
def Config.tableEntries : Nat := 256

/-- The OPEN parameters of 00_scope.md R7, fixed when the block is built (70_reset_and_hazards.md R173).
State carries them so that every claim is made for all their values; no step writes them. -/
structure Params where
  /-- MAX_FRAME: the largest payload the frame buffer holds; an integer of at least 2. -/
  maxFrame : Nat
  /-- HANDOFF_DEPTH: how many verified payloads the hand-off holds; an integer of at least 1. -/
  handoffDepth : Nat
deriving DecidableEq, Repr

/-- DESIGN CHOICE (log entry 1): the values the power-on state carries, those of 95_test_vectors.md. -/
def Params.default : Params := { maxFrame := 4096, handoffDepth := 16 }

/-- FREE VALUE (log entry 3): what digit `k` of `tdig` holds after the `n`-th RESET. 10_state.md R28 leaves it
unspecified and 93_implementation_defined.md I3 says any value, so it has no body. -/
opaque Config.freeDigit : (n k : Nat) → Byte

end Sys2Proof
end

