-- ==== Sys2Proof/Machine/Crc.lean ====
section
/-! DEFINITION. The functions of the CRC unit (40_crc_engine.md R81 to R87), as pure functions of their operands. The
machine's own update, which reads the built table, is `State.crcUpdate` in Machine/Ops.lean. -/

namespace Sys2Proof.Machine

/-- One bit of the reflected CRC: bit 0 is tested before the shift (40_crc_engine.md R81; 90_conflicts.md C1). -/
def crcBit (r : Word) : Word :=
  if r.getLsbD 0 then (r >>> 1) ^^^ Config.poly else r >>> 1

/-- TableEntry (40_crc_engine.md R81). -/
def tableEntry (i : Byte) : Word := Nat.repeat crcBit 8 (i.setWidth 16)

/-- The table index of an update: `(c XOR zext_16(b))[7:0]` (40_crc_engine.md R83). -/
def crcIndex (c : Word) (b : Byte) : Byte := (c ^^^ b.setWidth 16).setWidth 8

/-- The new accumulator, given the table entry read (40_crc_engine.md R83). -/
def crcFold (entry c : Word) : Word := entry ^^^ (c >>> 8)

/-- CrcUpdate over the table of 40_crc_engine.md R81 (R83). -/
def crcUpdate (c : Word) (b : Byte) : Word := crcFold (tableEntry (crcIndex c b)) c

/-- Checksum (40_crc_engine.md R84): no final XOR, no final bit reversal. -/
def checksum (s : List Byte) : Word := s.foldl crcUpdate Config.crcInit

/-- CrcUpdateBits, the bit-at-a-time form (40_crc_engine.md R85). The machine does not use it. -/
def crcUpdateBits (c : Word) (b : Byte) : Word := Nat.repeat crcBit 8 (c ^^^ b.setWidth 16)

/-- HexDigit (40_crc_engine.md R86): the ASCII byte of one nibble, uppercase. -/
def hexDigit (n : BitVec 4) : Byte :=
  if n.toNat < 10 then 0x30 + n.setWidth 8 else 0x41 + (n.setWidth 8 - 10)

/-- Hex4 (40_crc_engine.md R86): most significant nibble first, zeros kept. -/
def hex4 (v : Word) : Vector Byte 4 :=
  #v[hexDigit (v.extractLsb' 12 4), hexDigit (v.extractLsb' 8 4),
     hexDigit (v.extractLsb' 4 4), hexDigit (v.extractLsb' 0 4)]

/-- DigitsMatch (40_crc_engine.md R87): byte-for-byte equality of the four digits. -/
def digitsMatch (d : Vector Byte 4) (v : Word) : Bool :=
  d[0] == (hex4 v)[0] && d[1] == (hex4 v)[1] && d[2] == (hex4 v)[2] && d[3] == (hex4 v)[3]

end Sys2Proof.Machine
end

