-- ==== Sys2Proof/Syntax.lean ====
section
/-! DEFINITION. The operations of the block: one constructor per row of spec/opcode_table.json
(30_encoding.md R65). The only operand any of them takes is the data byte of an INPUT word (R68). -/

namespace Sys2Proof

/-- The 13 operations, in the table's order. Where a row names its one data byte (SS_START, SE_END, TR_EOL) or
ignores the data field, the constructor has no operand. -/
inductive Instr where
  /-- RESET, row 1 (70_reset_and_hazards.md R170). -/
  | reset
  /-- POP, row 2 (42_handoff_control.md R133). -/
  | pop
  /-- INIT_BUILD, row 3 (40_crc_engine.md R82). -/
  | initBuild
  /-- EMIT_PUSH, row 4 (42_handoff_control.md R132). -/
  | emitPush
  /-- SS_START, row 5 (41_frame_extractor.md R102): the data byte is `/`. -/
  | ssStart
  /-- SS_EOS, row 6 (41_frame_extractor.md R103). -/
  | ssEos
  /-- SS_DISCARD, row 7 (41_frame_extractor.md R104): any other byte. -/
  | ssDiscard (data : Byte)
  /-- SE_END, row 8 (41_frame_extractor.md R106): the data byte is `!`. -/
  | seEnd
  /-- SE_EOS, row 9 (41_frame_extractor.md R107). -/
  | seEos
  /-- SE_ACCUM, row 10 (41_frame_extractor.md R105): any other byte. -/
  | seAccum (data : Byte)
  /-- TR_EOL, row 11 (41_frame_extractor.md R111): the data byte is the line feed. -/
  | trEol
  /-- TR_EOS, row 12 (41_frame_extractor.md R112). -/
  | trEos
  /-- TR_BYTE, row 13 (41_frame_extractor.md R110): any other byte. -/
  | trByte (data : Byte)
deriving DecidableEq, Repr

end Sys2Proof
end

