-- ==== Sys2Proof/WellFormed.lean ====
section
/-! DEFINITION. Which operations a word can stand for: the general-byte rows of 30_encoding.md R65 never carry the
byte that the named row of their phase takes first (R64). Which parameter values the block can be built with
(00_scope.md R7). -/

namespace Sys2Proof

/-- The operand checks of 30_encoding.md R65: "any other" in the data column of rows 7, 10 and 13. -/
def WellFormed : Instr → Bool
  | .reset => true
  | .pop => true
  | .initBuild => true
  | .emitPush => true
  | .ssStart => true
  | .ssEos => true
  | .ssDiscard b => b != Config.startMark
  | .seEnd => true
  | .seEos => true
  | .seAccum b => b != Config.endMark
  | .trEol => true
  | .trEos => true
  | .trByte b => b != Config.eol

/-- MAX_FRAME is at least 2 and HANDOFF_DEPTH at least 1 (00_scope.md R7). -/
def Params.wf (p : Params) : Bool :=
  decide (2 ≤ p.maxFrame) && decide (1 ≤ p.handoffDepth)

end Sys2Proof
end

