-- ==== Sys2Proof/Decode.lean ====
section
/-! DEFINITION. The decoder of 30_encoding.md R64 over the opcode map of R65, the classes of words that select no
operation (R66, R67), and after it the encoder. -/

namespace Sys2Proof

/-! ### The fields of the operation word -/

/-- The port field's values (30_encoding.md R61). -/
def Port.code : Port → BitVec 2
  | .internal => 0b00
  | .input => 0b01
  | .pop => 0b10
  | .reset => 0b11

/-- The port a field value names. -/
def Port.ofCode (c : BitVec 2) : Port :=
  if c = 0b00 then .internal
  else if c = 0b01 then .input
  else if c = 0b10 then .pop
  else .reset

/-- The phase register's encoding (10_state.md R11, 30_encoding.md R62). -/
def Phase.code : Phase → BitVec 3
  | .init => 0
  | .seekStart => 1
  | .seekEnd => 2
  | .trailer => 3
  | .emitWait => 4
  | .done => 5
  | .reserved6 => 6
  | .reserved7 => 7

/-- The phase a field value names. -/
def Phase.ofCode (c : BitVec 3) : Phase :=
  if c = 0 then .init
  else if c = 1 then .seekStart
  else if c = 2 then .seekEnd
  else if c = 3 then .trailer
  else if c = 4 then .emitWait
  else if c = 5 then .done
  else if c = 6 then .reserved6
  else .reserved7

/-- `w[13:12]` (30_encoding.md R60). -/
def opPort (w : OpWord) : Port := Port.ofCode (w.extractLsb' 12 2)

/-- `w[11:9]` (30_encoding.md R60). -/
def opPhase (w : OpWord) : Phase := Phase.ofCode (w.extractLsb' 9 3)

/-- `w[8:0]`, the input symbol of an INPUT word (30_encoding.md R60, R63). -/
def opSymbol (w : OpWord) : Symbol := w.extractLsb' 0 9

/-- `w[7:0]` (30_encoding.md R60). -/
def opData (w : OpWord) : Byte := w.extractLsb' 0 8

/-! ### The decoder -/

/-- A row of the opcode map: a word belongs to it when `(w & mask) = pattern`; `make` takes the data field. -/
structure OpcodeRow where
  pattern : OpWord
  mask : OpWord
  make : Byte → Instr

/-- The opcode map of 30_encoding.md R65, row for row and in its order. -/
def opcodeMap : List OpcodeRow :=
  [ ⟨0x3000, 0x3000, fun _ => .reset⟩,
    ⟨0x2000, 0x3000, fun _ => .pop⟩,
    ⟨0x0000, 0x3E00, fun _ => .initBuild⟩,
    ⟨0x0800, 0x3E00, fun _ => .emitPush⟩,
    ⟨0x122F, 0x3FFF, fun _ => .ssStart⟩,
    ⟨0x1300, 0x3F00, fun _ => .ssEos⟩,
    ⟨0x1200, 0x3F00, fun b => .ssDiscard b⟩,
    ⟨0x1421, 0x3FFF, fun _ => .seEnd⟩,
    ⟨0x1500, 0x3F00, fun _ => .seEos⟩,
    ⟨0x1400, 0x3F00, fun b => .seAccum b⟩,
    ⟨0x160A, 0x3FFF, fun _ => .trEol⟩,
    ⟨0x1700, 0x3F00, fun _ => .trEos⟩,
    ⟨0x1600, 0x3F00, fun b => .trByte b⟩ ]

/-- Why a number selects no operation. The state-dependent classes EMIT_BLOCKED and POP_EMPTY of 30_encoding.md R66
are guards of EMIT_PUSH and POP, not of the word. -/
inductive Reject where
  /-- Port 00 with phase 001, 010, 011 or 101 (30_encoding.md R66): the engine has no internal step there. -/
  | noInternal
  /-- Port 01 with phase 000, 100 or 101 (30_encoding.md R66): `in_ready = 0`. -/
  | inputNotReady
  /-- Ports 00 and 01 with phase 110 or 111 (30_encoding.md R67). -/
  | reservedPhase
  /-- A number of more than 14 bits: no operation word (30_encoding.md R69). -/
  | notAWord
deriving DecidableEq, Repr

/-- The phases 110 and 111 (10_state.md R11). -/
def Phase.isReserved : Phase → Bool
  | .init => false
  | .seekStart => false
  | .seekEnd => false
  | .trailer => false
  | .emitWait => false
  | .done => false
  | .reserved6 => true
  | .reserved7 => true

/-- The class of a word that no row of the opcode map takes (30_encoding.md R66, R67). -/
def rejectClass (w : OpWord) : Reject :=
  if (opPhase w).isReserved then .reservedPhase
  else if opPort w = .internal then .noInternal
  else .inputNotReady

/-- The decoding procedure of 30_encoding.md R64: the first row, in table order, whose masked bits agree. -/
def decodeWord (w : OpWord) : Except Reject Instr :=
  match opcodeMap.find? (fun r => (w &&& r.mask) == r.pattern) with
  | some r => .ok (r.make (opData w))
  | none => .error (rejectClass w)

/-- The decoder on any number: every operation word is 14 bits (30_encoding.md R69). -/
def decode (w : Nat) : Except Reject Instr :=
  if w < 2 ^ 14 then decodeWord (BitVec.ofNat 14 w) else .error .notAWord

/-- The decoder on an instruction numbered as spec/opcode_table.json numbers it. The table's words are 14 bits and
are never stored in a memory, so `nbits` (the width in whole bytes) adds no bit of its own. -/
def decodeTableWord (_nbits w : Nat) : Option Instr :=
  match decode w with
  | .ok i => some i
  | .error _ => none

/-! ### The encoder -/

/-- The general-byte word of a row: the row's fixed bits with the data field filled in (30_encoding.md R60, R65). -/
def withData (fixed : OpWord) (b : Byte) : OpWord := fixed ||| b.setWidth 14

/-- The word of an operation (30_encoding.md R65, R70). Fields that a row's mask leaves out are 0. -/
def encode : Instr → OpWord
  | .reset => 0x3000
  | .pop => 0x2000
  | .initBuild => 0x0000
  | .emitPush => 0x0800
  | .ssStart => 0x122F
  | .ssEos => 0x1300
  | .ssDiscard b => withData 0x1200 b
  | .seEnd => 0x1421
  | .seEos => 0x1500
  | .seAccum b => withData 0x1400 b
  | .trEol => 0x160A
  | .trEos => 0x1700
  | .trByte b => withData 0x1600 b

end Sys2Proof
end

