-- ==== Sys2Proof/Machine/State.lean ====
section
/-! DEFINITION. Every piece of state the spec gives the block (10_state.md R10), its parameters, its ports' outputs,
the pending moves of the agents around it, and the state after reset (R28). Plain data throughout. -/

namespace Sys2Proof.Machine

/-- The faults a model records (60_exceptions.md R164). None is a behaviour of the hardware, and no state that
meets the invariants of 10_state.md R29 reaches one. A meaning answers with the fault; a step records it in `faultMark`
and the engine takes no step from then on (93_implementation_defined.md, part 1, `fault`). Each is safe: the engine
stops. -/
inductive Fault where
  /-- `phase` is 6 or 7 (30_encoding.md R67). Found by every step at its start, in `State.observedFault`; raised by
  `State.engineStep` for an operation asked for in such a phase. Safe. -/
  | reservedPhase
  /-- A TableRead while `table_valid = 0`, or of an entry that holds no value (20_memory.md R41). Raised by
  `State.tableRead`. Safe. -/
  | tableNotBuilt
  /-- An HQPush while the hand-off is full (20_memory.md R43). Raised by `State.hqPush`. Safe. -/
  | handoffOverflow
  /-- A BufAppend with no room in the frame buffer (20_memory.md R42). Raised by `State.bufAppend`. Safe. -/
  | bufferOverflow
  /-- A BufRead outside `fbuf[0..flen)`, or of an entry nothing has written since RESET (20_memory.md R42;
  92_eei_decisions.md D26: "A model holds "no value", and a read faults"). Raised by `State.bufRead`. Safe. -/
  | bufferNotWritten
deriving DecidableEq, Repr

/-- Why an instruction has no meaning. No arm of this model's `exec` uses it. -/
inductive Refusal where
  /-- The instruction's meaning has not been written. Safe: nothing runs. -/
  | notModelled (mnemonic : String)
deriving DecidableEq, Repr

/-- The report kinds (60_exceptions.md R150). -/
inductive Report where
  | streamTerminatorMissing
  | trailerLengthMismatch
  | checksumMismatch
  | frameTooLarge
deriving DecidableEq, Repr

/-- The state. The first ten fields are the block's own, in the order of 10_state.md R10. -/
structure State where
  /-- The control state, 3 bits (10_state.md R11). -/
  phase : Phase
  /-- The table entries built since reset, 9 bits, values 0 to 256 (10_state.md R12). -/
  buildIdx : BitVec 9
  /-- The CRC table, 256 entries of 16 bits (10_state.md R13): the entries that hold a value, by rising index. -/
  table : List (Nat × Word)
  /-- The running accumulator, 16 bits (10_state.md R14). -/
  crc : Word
  /-- The frame buffer, MAX_FRAME bytes (10_state.md R15): the bytes that hold a value, by rising index. -/
  fbuf : List Host.Cell
  /-- The number of valid bytes in the frame buffer, 0 to MAX_FRAME (10_state.md R15). -/
  flen : Nat
  /-- The trailer bytes consumed, 3 bits, saturating at 7 (10_state.md R16). -/
  tlen : BitVec 3
  /-- The first four bytes of the trailer line (10_state.md R17). -/
  tdig : Vector Byte 4
  /-- The hand-off FIFO of verified payloads, head first (10_state.md R18). -/
  hq : List (List Byte)
  /-- Set when end-of-stream has been consumed (10_state.md R19). -/
  seqDone : Bool
  /-- MAX_FRAME and HANDOFF_DEPTH (00_scope.md R7). No step writes them. -/
  params : Params
  /-- The report port in the step just taken: `none` is `rep_valid = 0` (60_exceptions.md R150). -/
  report : Option Report
  /-- Every report raised, oldest first: the port's output history (10_state.md R27). RESET does not erase it. -/
  reportLog : List Report
  /-- Every payload POP has delivered to the consumer, oldest first (42_handoff_control.md R133). -/
  delivered : List (List Byte)
  /-- The symbols the upstream agent has still to offer; the head is the one offered (70_reset_and_hazards.md R174). -/
  upstream : List Symbol
  /-- Which agent acts next, next first (70_reset_and_hazards.md R183). The model's own field (log entry 2). -/
  agenda : List Port
  /-- The model's fault mark, kept across RESET (60_exceptions.md R164). -/
  faultMark : Option Fault
  /-- How many RESETs have been taken: the argument of the free values of `tdig`. The model's own field (log entry 3). -/
  resetCount : Nat
deriving DecidableEq, Repr

/-- The state right after reset of a block built with the parameters `p` (10_state.md R28): no entry of `table` or
`fbuf` holds a value, nothing is pending and nothing has been reported. `tdig` is a DESIGN CHOICE (log entry 3). -/
def State.resetWith (p : Params) : State where
  phase := .init
  buildIdx := 0
  table := []
  crc := 0
  fbuf := []
  flen := 0
  tlen := 0
  tdig := Vector.replicate 4 0
  hq := []
  seqDone := false
  params := p
  report := none
  reportLog := []
  delivered := []
  upstream := []
  agenda := []
  faultMark := none
  resetCount := 0

/-- The state right after reset, with the parameter values of log entry 1. -/
def State.reset : State := State.resetWith Params.default

end Sys2Proof.Machine
end

