-- ==== Sys2Proof/Machine/Flags.lean ====
section
/-! DEFINITION. The block has no flags (10_state.md R23). In their place: the derived signals of its ports (R20, R21),
what stops the engine for good (30_encoding.md R67), which port has a step (R61), and the report codes
(60_exceptions.md R150). -/

namespace Sys2Proof.Machine

/-- `in_ready` (10_state.md R20). -/
def State.inReady (s : State) : Bool :=
  s.phase == .seekStart || s.phase == .seekEnd || s.phase == .trailer

/-- `table_valid` (10_state.md R20). -/
def State.tableValid (s : State) : Bool := s.buildIdx == 256

/-- `out_valid` (10_state.md R20). -/
def State.outValid (s : State) : Bool := decide (0 < s.hq.length)

/-- `out_payload`, the head of the hand-off; `none` where it is not defined (10_state.md R20). -/
def State.outPayload (s : State) : Option (List Byte) := s.hq.head?

/-- `out_end` (10_state.md R20, 42_handoff_control.md R135). -/
def State.outEnd (s : State) : Bool := s.seqDone && s.hq.isEmpty

/-- `hq_full` (10_state.md R20). -/
def State.hqFull (s : State) : Bool := s.hq.length == s.params.handoffDepth

/-- `in_valid`: the upstream offers a symbol (10_state.md R21). -/
def State.inValid (s : State) : Bool := !s.upstream.isEmpty

/-- `in_sym`: the symbol offered (10_state.md R21). -/
def State.inSym (s : State) : Option Symbol := s.upstream.head?

/-- `out_pop`: it is the consumer's turn to take a payload (10_state.md R21). -/
def State.outPop (s : State) : Bool := s.agenda.head? == some .pop

/-- `rst`: it is the environment's turn to reset (10_state.md R21). -/
def State.rst (s : State) : Bool := s.agenda.head? == some .reset

/-- The fault mark with what the state itself shows: a reserved phase is a fault found (30_encoding.md R67), and a mark
once set is kept (60_exceptions.md R164). -/
def State.observedFault (s : State) : Option Fault :=
  match s.faultMark with
  | some f => some f
  | none => if s.phase.isReserved then some .reservedPhase else none

/-- The engine has stopped for a fault: it takes no internal step and no input (30_encoding.md R67,
93_implementation_defined.md, part 1, `fault`). POP and RESET still apply, and neither lifts the mark. -/
def State.halted (s : State) : Bool := s.observedFault.isSome

/-- Which port has a step (30_encoding.md R61). A halted engine has neither of its two (R67). -/
def State.enabled (s : State) : Port → Bool
  | .internal => !s.halted && (s.phase == .init || (s.phase == .emitWait && !s.hqFull))
  | .input => !s.halted && s.inValid && s.inReady
  | .pop => s.outPop && s.outValid
  | .reset => s.rst

/-- The report codes (60_exceptions.md R150). -/
def Report.code : Report → BitVec 3
  | .streamTerminatorMissing => 1
  | .trailerLengthMismatch => 2
  | .checksumMismatch => 3
  | .frameTooLarge => 4

/-- `rep_valid` in the step just taken (60_exceptions.md R150). -/
def State.repValid (s : State) : Bool := s.report.isSome

/-- `rep_code` in the step just taken: 0 is "no report" (60_exceptions.md R150). -/
def State.repCode (s : State) : BitVec 3 :=
  match s.report with
  | some k => Report.code k
  | none => 0

end Sys2Proof.Machine
end

