-- ==== Sys2Proof/Machine/Ops.lean ====
section
/-! DEFINITION. The named operations: sparse memories in canonical form, the primitives over the table, the frame
buffer and the hand-off (20_memory.md R41 to R43), the report port with its recovery (60_exceptions.md R150, R152),
and the two shapes every operation of the engine shares: enabled or not, effect or fault. -/

namespace Sys2Proof.Machine

/-! ### Memories

A memory is a list of (index, value) pairs by strictly rising index. An index that is not listed holds no value. -/

/-- The value at an index, `none` where nothing has been written. -/
def Memory.read {α : Type} : List (Nat × α) → Nat → Option α
  | [], _ => none
  | (a, v) :: m, k => if a = k then some v else Memory.read m k

/-- Writes one index and keeps the list in canonical form. -/
def Memory.write {α : Type} : List (Nat × α) → Nat → α → List (Nat × α)
  | [], k, v => [(k, v)]
  | (a, u) :: m, k, v =>
    if k < a then (k, v) :: (a, u) :: m
    else if k = a then (k, v) :: m
    else (a, u) :: Memory.write m k v

/-- The canonical form: indices strictly rising. No listed entry can equal what an unlisted index reads as, since that
is no value. -/
abbrev Memory.wf {α : Type} (m : List (Nat × α)) : Prop := m.Pairwise (fun x y => x.1 < y.1)

/-! ### The start of a step, and the report port -/

/-- What every step begins with: the report port shows nothing (60_exceptions.md R150) and a reserved phase is
recorded. On its own it is a turn in which no operation happens (30_encoding.md R66). -/
def State.begin (s : State) : State :=
  { s with report := none, faultMark := s.observedFault }

/-- `report K`: the port shows the kind for this step, and the output history grows by it (60_exceptions.md R150). -/
def State.raise (s : State) (k : Report) : State :=
  { s with report := some k, reportLog := s.reportLog ++ [k] }

/-- The block's whole treatment of an anomaly (60_exceptions.md R152, R155): report it and go to the phase from which
scanning continues. Nothing else is written, so the frame is dropped where it stands. There is no saved state and no
return from it (R156). -/
def State.recover (s : State) (k : Report) (p : Phase) : State :=
  { s.raise k with phase := p }

/-- End-of-stream has been consumed: the sequence is over (41_frame_extractor.md R103, R107, R112). -/
def State.endStream (s : State) : State :=
  { s with phase := .done, seqDone := true }

/-! ### The CRC table -/

/-- TableRead (20_memory.md R41). -/
def State.tableRead (s : State) (i : Byte) : Except Fault Word :=
  if s.tableValid then
    match Memory.read s.table i.toNat with
    | some v => .ok v
    | none => .error .tableNotBuilt
  else .error .tableNotBuilt

/-- TableWrite (20_memory.md R41). -/
def State.tableWrite (s : State) (i : Byte) (v : Word) : State :=
  { s with table := Memory.write s.table i.toNat v }

/-- CrcUpdate over the block's own table (40_crc_engine.md R83). -/
def State.crcUpdate (s : State) (c : Word) (b : Byte) : Except Fault Word := do
  let entry ← s.tableRead (crcIndex c b)
  return crcFold entry c

/-! ### The frame buffer -/

/-- BufClear (20_memory.md R42). -/
def State.bufClear (s : State) : State := { s with flen := 0 }

/-- BufAppend (20_memory.md R42). -/
def State.bufAppend (s : State) (b : Byte) : Except Fault State :=
  if s.flen < s.params.maxFrame then
    .ok { s with fbuf := Memory.write s.fbuf s.flen b, flen := s.flen + 1 }
  else .error .bufferOverflow

/-- BufRead (20_memory.md R42). -/
def State.bufRead (s : State) (i : Nat) : Except Fault Byte :=
  if i < s.flen then
    match Memory.read s.fbuf i with
    | some b => .ok b
    | none => .error .bufferNotWritten
  else .error .bufferNotWritten

/-- `fbuf[0..n)`, read byte by byte. -/
def State.bufPrefix (s : State) : Nat → Except Fault (List Byte)
  | 0 => .ok []
  | n + 1 => do
    let p ← s.bufPrefix n
    let b ← s.bufRead n
    return p ++ [b]

/-- The payload `fbuf[0..flen)` (20_memory.md R42). -/
def State.payload (s : State) : Except Fault (List Byte) := s.bufPrefix s.flen

/-! ### The hand-off -/

/-- HQPush (20_memory.md R43): a payload enters whole, at the tail. -/
def State.hqPush (s : State) (p : List Byte) : Except Fault State :=
  if s.hq.length < s.params.handoffDepth then .ok { s with hq := s.hq ++ [p] }
  else .error .handoffOverflow

/-- HQPop (20_memory.md R43) with the delivery of 42_handoff_control.md R133; `none` where there is no payload. -/
def State.hqPop (s : State) : Option State :=
  match s.hq with
  | [] => none
  | p :: rest => some { s with hq := rest, delivered := s.delivered ++ [p] }

/-- Emits the captured frame: the whole payload is copied into the hand-off and scanning resumes
(42_handoff_control.md R131, R132; the push arm of 41_frame_extractor.md R111). -/
def State.emit (s : State) : Except Fault State := do
  let p ← s.payload
  let t ← s.hqPush p
  return { t with phase := .seekStart }

/-! ### Capturing bytes -/

/-- A byte joins the frame: it is appended and folded into the checksum (41_frame_extractor.md R105, R106). -/
def State.capture (s : State) (b : Byte) : Except Fault State := do
  let c ← s.crcUpdate s.crc b
  let t ← s.bufAppend b
  return { t with crc := c }

/-- Overflow (41_frame_extractor.md R108): the byte is discarded and the frame dropped. -/
def State.overflow (s : State) : State := s.recover .frameTooLarge .seekStart

/-! ### The shape of an operation -/

/-- What an operation or a step of the machine answers. -/
abbrev Result := Host.Outcome State Fault Refusal

/-- Records a fault that an operation met: nothing of the block has changed, and the mark is set for the rest of the run
(60_exceptions.md R164). A mark set before is kept. -/
def State.recordFault (s : State) (f : Fault) : State :=
  { s with report := none, faultMark := some (s.faultMark.getD f) }

/-- An operation's answer as the step's own: a fault is recorded in the state `s` from before the operation, the symbol
still offered (log entry 6). -/
def State.settle (s : State) : Result → Result
  | .next t => .next t
  | .fault f => .next (s.recordFault f)
  | .refused r => .refused r

/-- An effect that may reach a fault, as the answer of a step. -/
def finish : Except Fault State → Result
  | .ok t => .next t
  | .error f => .fault f

/-- An operation of the engine or of the upstream: it is enabled in one phase. A reserved phase faults
(30_encoding.md R67). In any other phase it has no step, which is a wait and not a fault (R61, R66; log entry 4). The
effect starts from `s.begin`. -/
def State.engineStep (s : State) (p : Phase) (effect : State → Except Fault State) : Result :=
  if s.phase.isReserved then .fault .reservedPhase
  else if s.phase = p then finish (effect s.begin)
  else .next s.begin

end Sys2Proof.Machine
end

