-- ==== Sys2Proof/Machine/Control.lean ====
section
/-! DEFINITION. The operation RESET (70_reset_and_hazards.md R170). -/

namespace Sys2Proof.Machine

/-- The digits of the trailer register after the `n`-th RESET: free values (10_state.md R28; log entry 3). -/
def freeDigits (n : Nat) : Vector Byte 4 :=
  #v[Config.freeDigit n 0, Config.freeDigit n 1, Config.freeDigit n 2, Config.freeDigit n 3]

/-- Every element of 10_state.md R10 at its value of R28. The table and the frame buffer hold no value
(92_eei_decisions.md D26), the trailer digits are free values. The parameters, the output histories, the agents'
pending moves and the fault mark are not state of the block and stay. -/
def State.clearBlock (s : State) : State :=
  { s with
    phase := .init
    buildIdx := 0
    table := []
    crc := 0
    fbuf := []
    flen := 0
    tlen := 0
    tdig := freeDigits s.resetCount
    hq := []
    seqDone := false
    resetCount := s.resetCount + 1 }

/-- RESET (70_reset_and_hazards.md R170), in every phase, the reserved ones too. -/
def execReset (s : State) : Result := .next s.begin.clearBlock

end Sys2Proof.Machine
end

