-- ==== Sys2Proof/Machine/CrcUnit.lean ====
section
/-! DEFINITION. The operation of the CRC unit: INIT_BUILD (40_crc_engine.md R82). -/

namespace Sys2Proof.Machine

/-- One entry of the table is built, and the last one opens the stream (40_crc_engine.md R82). -/
def buildEntry (s : State) : State :=
  let i : Byte := s.buildIdx.setWidth 8
  { s.tableWrite i (tableEntry i) with
    buildIdx := s.buildIdx + 1
    phase := if s.buildIdx + 1 = 256 then .seekStart else s.phase }

/-- INIT_BUILD (40_crc_engine.md R82). -/
def execInitBuild (s : State) : Result :=
  s.engineStep .init fun s => .ok (buildEntry s)

end Sys2Proof.Machine
end

