-- ==== Sys2Proof/Machine/Operands.lean ====
section
/-! DEFINITION. Operand assembly: the input symbol (30_encoding.md R63), the operation word that a port, the phase
register and the symbol form (R60, R68), and the trailer digit an arriving byte is stored in (10_state.md R16, R17). -/

namespace Sys2Proof.Machine

/-- The symbol of a data byte: `0x0bb` (30_encoding.md R63). -/
def byteSymbol (b : Byte) : Symbol := b.setWidth 9

/-- The symbol of end-of-stream: `0x100` (30_encoding.md R63). -/
def eosSymbol : Symbol := 0x100

/-- The operation word `{port, phase, eos, data}` (30_encoding.md R60): the phase bits are a copy of the register, and
the symbol's bits are 0 for every port but INPUT. -/
def State.opWord (s : State) (p : Port) : OpWord :=
  p.code ++ s.phase.code ++ (if p = .input then s.upstream.headD 0 else 0#9)

/-- The count of trailer bytes after one more, saturating at 7 (10_state.md R16). -/
def tlenNext (t : BitVec 3) : BitVec 3 := if t = 7 then 7 else t + 1

/-- The trailer digits after byte number `t` (10_state.md R17): only the first four are kept. -/
def tdigNext (d : Vector Byte 4) (t : BitVec 3) (b : Byte) : Vector Byte 4 :=
  if h : t.toNat < 4 then d.set t.toNat b else d

end Sys2Proof.Machine
end

