-- ==== Sys2Proof/Machine/FrameExtractor.lean ====
section
/-! DEFINITION. The nine input operations of the frame extractor (41_frame_extractor.md R102 to R112). -/

namespace Sys2Proof.Machine

/-! ### Seek-start -/

/-- SS_START (41_frame_extractor.md R102). -/
def execSsStart (s : State) : Result :=
  s.engineStep .seekStart fun s => do
    let t ← s.bufClear.bufAppend Config.startMark
    let c ← s.crcUpdate Config.crcInit Config.startMark
    return { t with crc := c, tlen := 0, phase := .seekEnd }

/-- SS_EOS (41_frame_extractor.md R103). -/
def execSsEos (s : State) : Result :=
  s.engineStep .seekStart fun s => .ok s.endStream

/-- SS_DISCARD (41_frame_extractor.md R104): the byte is noise. -/
def execSsDiscard (_b : Byte) (s : State) : Result :=
  s.engineStep .seekStart fun s => .ok s

/-! ### Seek-end -/

/-- SE_END (41_frame_extractor.md R106, R108). -/
def execSeEnd (s : State) : Result :=
  s.engineStep .seekEnd fun s =>
    if s.flen = s.params.maxFrame then .ok s.overflow
    else do
      let t ← s.capture Config.endMark
      return { t with tlen := 0, phase := .trailer }

/-- SE_EOS (41_frame_extractor.md R107). -/
def execSeEos (s : State) : Result :=
  s.engineStep .seekEnd fun s => .ok (s.recover .streamTerminatorMissing .done).endStream

/-- SE_ACCUM (41_frame_extractor.md R105, R108, R109). -/
def execSeAccum (b : Byte) (s : State) : Result :=
  s.engineStep .seekEnd fun s =>
    if s.flen = s.params.maxFrame then .ok s.overflow else s.capture b

/-! ### Trailer and verify -/

/-- TR_EOL (41_frame_extractor.md R111): the length test, then the digits, then the push or the wait. -/
def execTrEol (s : State) : Result :=
  s.engineStep .trailer fun s =>
    if s.tlen ≠ 5 then .ok (s.recover .trailerLengthMismatch .seekStart)
    else if digitsMatch s.tdig s.crc = false then .ok (s.recover .checksumMismatch .seekStart)
    else if s.hq.length < s.params.handoffDepth then s.emit
    else .ok { s with phase := .emitWait }

/-- TR_EOS (41_frame_extractor.md R112). -/
def execTrEos (s : State) : Result :=
  s.engineStep .trailer fun s => .ok (s.recover .trailerLengthMismatch .done).endStream

/-- TR_BYTE (41_frame_extractor.md R110). -/
def execTrByte (b : Byte) (s : State) : Result :=
  s.engineStep .trailer fun s =>
    .ok { s with tdig := tdigNext s.tdig s.tlen b, tlen := tlenNext s.tlen }

end Sys2Proof.Machine
end

