-- ==== Sys2Proof/Machine/Handoff.lean ====
section
/-! DEFINITION. The operations of the hand-off: EMIT_PUSH and POP (42_handoff_control.md R132, R133). -/

namespace Sys2Proof.Machine

/-- EMIT_PUSH (42_handoff_control.md R132). While the hand-off is full it has no step (class EMIT_BLOCKED). -/
def execEmitPush (s : State) : Result :=
  s.engineStep .emitWait fun s =>
    if s.hq.length < s.params.handoffDepth then s.emit else .ok s

/-- POP (42_handoff_control.md R133), in any phase. While the hand-off is empty it has no step (class POP_EMPTY). -/
def execPop (s : State) : Result :=
  match s.begin.hqPop with
  | some t => .next t
  | none => .next s.begin

end Sys2Proof.Machine
end

