-- ==== Sys2Proof/Machine/Dispatch.lean ====
section
/-! DEFINITION. One arm per operation (30_encoding.md R65). -/

namespace Sys2Proof.Machine

def exec (i : Instr) (s : State) : Host.Outcome State Fault Refusal :=
  match i with
  | .reset => Sys2Proof.Machine.execReset s
  | .pop => Sys2Proof.Machine.execPop s
  | .initBuild => Sys2Proof.Machine.execInitBuild s
  | .emitPush => Sys2Proof.Machine.execEmitPush s
  | .ssStart => Sys2Proof.Machine.execSsStart s
  | .ssEos => Sys2Proof.Machine.execSsEos s
  | .ssDiscard b => Sys2Proof.Machine.execSsDiscard b s
  | .seEnd => Sys2Proof.Machine.execSeEnd s
  | .seEos => Sys2Proof.Machine.execSeEos s
  | .seAccum b => Sys2Proof.Machine.execSeAccum b s
  | .trEol => Sys2Proof.Machine.execTrEol s
  | .trEos => Sys2Proof.Machine.execTrEos s
  | .trByte b => Sys2Proof.Machine.execTrByte b s

end Sys2Proof.Machine
end

