-- ==== Sys2Proof/Machine/Fetch.lean ====
section
/-! DEFINITION. How a step finds its operation: whose turn it is (70_reset_and_hazards.md R183; log entry 2), the
operation word of that turn (30_encoding.md R60), and what its consumption takes from the agents' queues. -/

namespace Sys2Proof.Machine

/-- Whose turn it is when the agenda is empty: the eager order of 70_reset_and_hazards.md R183. The engine goes first
while it has a step, then the upstream while its symbol can be taken, and else the engine idles. -/
def State.idlePort (s : State) : Port :=
  if s.enabled .internal then .internal
  else if s.enabled .input then .input
  else .internal

/-- Whose turn it is. The agenda's order is any order at all, so that a claim over all states holds for every
schedule (20_memory.md R54, 70_reset_and_hazards.md R183). -/
def State.nextPort (s : State) : Port :=
  match s.agenda with
  | p :: _ => p
  | [] => s.idlePort

/-- The turn is over: the agenda moves on. -/
def State.dropTurn (s : State) : State := { s with agenda := s.agenda.tail }

/-- An input transfer consumes its symbol; no other step touches the upstream (20_memory.md R50). -/
def State.consumeSymbol (s : State) (p : Port) : State :=
  { s with upstream := if p = .input then s.upstream.tail else s.upstream }

/-- The turn of port `p` has nothing to decode: the engine has stopped for a fault and `p` is one of its two ports
(30_encoding.md R67), or it is the upstream's turn and nothing is offered (R61). -/
def State.turnIsVoid (s : State) : Port → Bool
  | .internal => s.halted
  | .input => s.halted || !s.inValid
  | .pop => false
  | .reset => false

/-- The operation that the turn of port `p` selects (30_encoding.md R64 to R67). `none` is a turn with no operation: it is
void, or its word is of a class of R66. -/
def State.fetch (s : State) (p : Port) : Option Instr :=
  if s.turnIsVoid p then none
  else
    match decodeWord (s.opWord p) with
    | .ok i => some i
    | .error _ => none

/-! ### Placing an operation (log entry 5) -/

/-- The table as INIT leaves it (40_crc_engine.md R82, R92). -/
def builtTable : List (Nat × Word) :=
  (List.range Config.tableEntries).map fun i => (i, tableEntry (BitVec.ofNat 8 i))

/-- A payload that the hand-off may hold: "/!", the shortest one (41_frame_extractor.md R106). -/
def shortestPayload : List Byte := [Config.startMark, Config.endMark]

/-- Puts the phase register at a word's phase. A phase after INIT comes with the table that INIT has built
(10_state.md R29, item 2). -/
def State.enterPhase (s : State) (p : Phase) : State :=
  if p = .init ∨ s.tableValid then { s with phase := p }
  else { s with phase := p, buildIdx := 256, table := builtTable }

/-- Makes the next step the one that the word `w` names: its port has the turn, the phase register holds its phase,
its symbol is the one offered, and a POP has a payload to take. -/
def State.placeWord (s : State) (w : OpWord) : State :=
  match opPort w with
  | .reset => { s with agenda := .reset :: s.agenda }
  | .pop =>
    { s with
      agenda := .pop :: s.agenda
      hq := if s.hq.isEmpty then [shortestPayload] else s.hq }
  | .internal => { s.enterPhase (opPhase w) with agenda := .internal :: s.agenda }
  | .input =>
    { s.enterPhase (opPhase w) with
      agenda := .input :: s.agenda
      upstream := opSymbol w :: s.upstream }

end Sys2Proof.Machine
end

