-- ==== Sys2Proof/Machine/Step.lean ====
section
/-! DEFINITION. One step: the agent whose turn it is acts (30_encoding.md R60; 70_reset_and_hazards.md R183). -/

namespace Sys2Proof.Machine

/-- One step. The turn's port and the phase register select an operation, which runs; a fault it meets is recorded
(60_exceptions.md R164). A turn whose port has no step passes: that is a wait, not a fault (30_encoding.md R61, R66). A
reserved phase that the step finds is recorded in either case (R67). -/
def step (s : State) : Host.Outcome State Fault Refusal :=
  match s.dropTurn.fetch s.nextPort with
  | some i => s.dropTurn.settle (exec i (s.dropTurn.consumeSymbol s.nextPort))
  | none => .next s.dropTurn.begin

/-- `s` with the operation word `w` as the next thing to happen (log entry 5). -/
def State.withFetchWord (s : State) (_nbits w : Nat) : State := s.placeWord (BitVec.ofNat 14 w)

end Sys2Proof.Machine
end

