-- ==== Sys2Proof/Machine/Stream.lean ====
section
/-! DEFINITION. The assembler of stream programs (30_encoding.md R70, R71), and the run of one in the eager order of
70_reset_and_hazards.md R183. -/

namespace Sys2Proof.Machine

/-- One line of a stream program (30_encoding.md R70). -/
inductive StreamLine where
  | byte (b : Byte)
  | eos
  | pop
  | reset
deriving DecidableEq, Repr

/-- The input symbols a line offers (30_encoding.md R63, R70). -/
def StreamLine.symbols : StreamLine → List Symbol
  | .byte b => [byteSymbol b]
  | .eos => [eosSymbol]
  | .pop => []
  | .reset => []

/-- `BYTES "<s>"` (30_encoding.md R71). -/
def streamBytes (s : List Byte) : List StreamLine := s.map .byte

/-- `CRLF` (30_encoding.md R71). -/
def streamCrlf : List StreamLine := [.byte Config.cr, .byte Config.eol]

/-- The bytes of a valid frame: the body, its checksum's digits, CR and LF (30_encoding.md R71,
41_frame_extractor.md R120). -/
def frameBytes (body : List Byte) : List Byte :=
  body ++ (hex4 (checksum body)).toList ++ [Config.cr, Config.eol]

/-- `FRAME "<body>"` (30_encoding.md R71). -/
def streamFrame (body : List Byte) : List StreamLine :=
  streamBytes body ++ streamBytes (hex4 (checksum body)).toList ++ streamCrlf

/-! ### Running a stream program -/

/-- A turn of port `p`, taken ahead of the turns that the agenda lists. -/
def State.takeTurn (s : State) (p : Port) : Result := step { s with agenda := p :: s.agenda }

/-- The answer `r`, and from its next state on what `f` does. -/
def andThen (r : Result) (f : State → Result) : Result :=
  match r with
  | .next t => f t
  | .fault e => .fault e
  | .refused e => .refused e

/-- The eager order (70_reset_and_hazards.md R183), at most `n` steps of it: an internal step while one is enabled, else
the transfer of a symbol that is offered, until the block has no step of its own. -/
def State.eager : Nat → State → Result
  | 0, s => .next s
  | n + 1, s =>
    if s.enabled .internal then andThen (s.takeTurn .internal) (State.eager n)
    else if s.enabled .input then andThen (s.takeTurn .input) (State.eager n)
    else .next s

/-- More steps than the eager order can take: INIT ends within as many steps as `build_idx` has values, and every other
step consumes a symbol or follows one that did. -/
def State.eagerBound (s : State) : Nat := 512 + 2 * s.upstream.length

/-- What a line does (30_encoding.md R70): it offers a symbol, behind those still held back, or it is the consumer's POP
or the environment's RESET. -/
def StreamLine.perform (l : StreamLine) (s : State) : Result :=
  match l with
  | .byte b => .next { s with upstream := s.upstream ++ [byteSymbol b] }
  | .eos => .next { s with upstream := s.upstream ++ [eosSymbol] }
  | .pop => s.takeTurn .pop
  | .reset => s.takeTurn .reset

/-- A stream program, run from `s` (30_encoding.md R70): before each line, and after the last, the internal steps are
taken whenever they are enabled, and a symbol held back is transferred as soon as the block is ready for it (log entry
13). -/
def runProgram : List StreamLine → State → Result
  | [], s => s.eager s.eagerBound
  | l :: rest, s => andThen (s.eager s.eagerBound) fun t => andThen (l.perform t) (runProgram rest)

end Sys2Proof.Machine
end

