-- ==== Sys2Proof/Safety.lean ====
section
/-! DEFINITION. What counts as a good state (10_state.md R29), the ends of a run (42_handoff_control.md R136), and runs
of the machine. -/

namespace Sys2Proof.Machine

/-- A byte sequence that the hand-off may hold (10_state.md R29, item 7). -/
structure LegalPayload (maxFrame : Nat) (p : List Byte) : Prop where
  atLeastTwo : 2 ≤ p.length
  fits : p.length ≤ maxFrame
  starts : p.head? = some Config.startMark
  ends : p.getLast? = some Config.endMark
  noEarlierEnd : Config.endMark ∉ (p.drop 1).dropLast

/-- The phases in which a frame is captured, wholly or in part. -/
def State.holdsFrame (s : State) : Bool :=
  s.phase == .seekEnd || s.phase == .trailer || s.phase == .emitWait

/-- The table is valid and every entry holds what 40_crc_engine.md R81 gives it: what an operation that reads the
table needs (70_reset_and_hazards.md R176). -/
def State.tableReady (s : State) : Prop :=
  s.tableValid = true ∧ ∀ i : Byte, Memory.read s.table i.toNat = some (tableEntry i)

/-- The invariants of 10_state.md R29, with what makes them inductive: the part of the table that INIT has built so
far, the canonical form of the two memories, `flen` in its range in every phase, and no fault mark. -/
structure Inv (s : State) : Prop where
  /-- MAX_FRAME is at least 2 and HANDOFF_DEPTH at least 1 (00_scope.md R7). -/
  params : s.params.wf = true
  /-- Item 1. -/
  phase : s.phase.isReserved = false
  /-- Item 2, the count. -/
  built : s.phase ≠ .init → s.buildIdx = 256
  /-- INIT is left with the last entry (40_crc_engine.md R82). -/
  building : s.phase = .init → s.buildIdx.toNat < 256
  /-- Item 2, the entries, and those built so far while INIT lasts. -/
  table : ∀ i : Byte, i.toNat < s.buildIdx.toNat → Memory.read s.table i.toNat = some (tableEntry i)
  /-- The table's canonical form. -/
  tableWf : Memory.wf s.table
  /-- The frame buffer's canonical form. -/
  fbufWf : Memory.wf s.fbuf
  /-- The range of `flen` (10_state.md R10). -/
  flen : s.flen ≤ s.params.maxFrame
  /-- Item 3: a captured frame starts with the marker, and `crc` is its checksum. -/
  frame : s.holdsFrame = true →
    ∃ p, s.payload = .ok p ∧ p.head? = some Config.startMark ∧ s.crc = checksum p
  /-- Item 4. -/
  seeking : s.phase = .seekEnd → ∀ p, s.payload = .ok p → Config.endMark ∉ p
  /-- Item 5: after the terminator the captured frame is a legal payload. -/
  complete : s.phase = .trailer ∨ s.phase = .emitWait →
    ∀ p, s.payload = .ok p → LegalPayload s.params.maxFrame p
  /-- Item 6, less the part about the step that entered EMIT_WAIT. -/
  waiting : s.phase = .emitWait → s.tlen = 5 ∧ s.tdig = hex4 s.crc
  /-- Item 7, the capacity. -/
  capacity : s.hq.length ≤ s.params.handoffDepth
  /-- Item 7, the entries. -/
  handoff : ∀ p ∈ s.hq, LegalPayload s.params.maxFrame p
  /-- RESET empties the hand-off and INIT pushes nothing (42_handoff_control.md R133). -/
  initEmpty : s.phase = .init → s.hq = []
  /-- Item 8, and its converse: the steps that enter DONE set `seq_done` (10_state.md R19). -/
  finished : s.seqDone = true ↔ s.phase = .done
  /-- No fault has been recorded (60_exceptions.md R164). -/
  noFault : s.faultMark = none

/-- A run that is finished (42_handoff_control.md R136). A faulted state is never one (60_exceptions.md R164): neither a
marked one, nor one whose phase is reserved and that no step has marked yet (log entry 6). -/
def State.isFinished (s : State) : Bool := s.outEnd && !s.halted

/-- A run that is terminated with payloads pending (42_handoff_control.md R136). -/
def State.isTerminatedPending (s : State) : Bool := s.phase == .done && s.outValid

/-- A run that waits: neither of the above, and no step of any port is enabled (42_handoff_control.md R136). -/
def State.isWaiting (s : State) : Bool :=
  !s.isFinished && !s.isTerminatedPending && !s.enabled .internal && !s.enabled .input && !s.enabled .pop &&
    !s.enabled .reset

/-- `n` steps of the machine. -/
abbrev runSteps (n : Nat) (s : State) : Result := Host.Core.run Sys2Proof.core n s

/-- The states a run passes through: `t` comes of `s` by some number of steps. -/
inductive Reaches : State → State → Prop where
  | refl (s : State) : Reaches s s
  | tail {s t u : State} : Reaches s t → step t = .next u → Reaches s u

/-- The upstream's duty (70_reset_and_hazards.md R174): after end-of-stream it offers nothing more. -/
def upstreamDuty (symbols : List Symbol) : Bool :=
  match symbols.dropWhile (fun x => !x.getLsbD 8) with
  | [] => true
  | _ :: rest => rest.isEmpty

end Sys2Proof.Machine
end

