-- ==== Sys2Proof/Certificates/Slice0/Obligations.lean ====
section
/-! DEFINITION. The statements for the provers, in the order of the spec's files: encoding, CRC unit, frame extractor,
hand-off, reports, reset, steps, and the machine as a whole. -/

open Sys2Proof Sys2Proof.Machine

/-! ### Encoding (30_encoding.md) -/

/-- 30_encoding.md R64, R65, R68: no bit of an operation's encoding is dropped. -/
def Obligations.EncodedOperationsDecodeBack : Prop :=
  ∀ i : Instr, WellFormed i = true → decodeWord (encode i) = .ok i

/-- 30_encoding.md R64: the row order gives each named byte to its own row, so a general-byte operation never carries
it; and re-encoding changes only bits that the row's mask leaves out. -/
def Obligations.DecodedOperationsAreWellFormed : Prop :=
  ∀ (w : OpWord) (i : Instr), decodeWord w = .ok i →
    WellFormed i = true ∧ opPort (encode i) = opPort w ∧
      (opPort w = .internal ∨ opPort w = .input → opPhase (encode i) = opPhase w) ∧
      (opPort w = .input → (encode i).getLsbD 8 = w.getLsbD 8) ∧
      (opPort w = .input → w.getLsbD 8 = false → opData (encode i) = opData w)

/-- The operation a word selects, read off the columns port, phase, eos and data of 30_encoding.md R65, and the classes
of R66 and R67. -/
def decodeByFields (w : OpWord) : Except Reject Instr :=
  match opPort w, opPhase w with
  | .reset, _ => .ok .reset
  | .pop, _ => .ok .pop
  | .internal, .init => .ok .initBuild
  | .internal, .emitWait => .ok .emitPush
  | .input, .seekStart =>
    if w.getLsbD 8 then .ok .ssEos
    else if opData w = 0x2F then .ok .ssStart else .ok (.ssDiscard (opData w))
  | .input, .seekEnd =>
    if w.getLsbD 8 then .ok .seEos
    else if opData w = 0x21 then .ok .seEnd else .ok (.seAccum (opData w))
  | .input, .trailer =>
    if w.getLsbD 8 then .ok .trEos
    else if opData w = 0x0A then .ok .trEol else .ok (.trByte (opData w))
  | _, .reserved6 => .error .reservedPhase
  | _, .reserved7 => .error .reservedPhase
  | .internal, _ => .error .noInternal
  | .input, _ => .error .inputNotReady

/-- 30_encoding.md R64 to R67: matching masks in table order is reading the fields. -/
def Obligations.MaskedRowsSelectByFields : Prop :=
  ∀ w : OpWord, decodeWord w = decodeByFields w

/-- 30_encoding.md R60, R63, R65: words written out from the spec's encoding, `{port, phase, eos, data}`. -/
def Obligations.WrittenOutWordsDecode : Prop :=
  decodeWord 0b11_000_0_00000000 = .ok .reset ∧
  decodeWord 0b10_101_0_00000000 = .ok .pop ∧
  decodeWord 0b00_000_0_00000000 = .ok .initBuild ∧
  decodeWord 0b00_100_0_00000000 = .ok .emitPush ∧
  decodeWord 0b01_001_0_00101111 = .ok .ssStart ∧
  decodeWord 0b01_001_0_01000001 = .ok (.ssDiscard 0x41) ∧
  decodeWord 0b01_010_0_00101111 = .ok (.seAccum 0x2F) ∧
  decodeWord 0b01_011_1_00000000 = .ok .trEos ∧
  decodeWord 0b00_001_0_00000000 = .error .noInternal ∧
  decodeWord 0b01_000_0_00000000 = .error .inputNotReady ∧
  decodeWord 0b00_110_0_00000000 = .error .reservedPhase

/-! ### CRC unit (40_crc_engine.md) -/

/-- 40_crc_engine.md R81: the table is linear. -/
def Obligations.TableEntryIsLinear : Prop :=
  ∀ a b : Byte, tableEntry (a ^^^ b) = tableEntry a ^^^ tableEntry b

/-- 40_crc_engine.md R92: "All 256 entries are distinct, and so are their high bytes". -/
def Obligations.TableEntriesAreDistinct : Prop :=
  ∀ a b : Byte, (tableEntry a).extractLsb' 8 8 = (tableEntry b).extractLsb' 8 8 → a = b

/-- 40_crc_engine.md R85: the table form equals the bit-serial form, for every accumulator and byte. -/
def Obligations.TableUpdateEqualsBitSerial : Prop :=
  ∀ (c : Word) (b : Byte), crcUpdate c b = crcUpdateBits c b

/-- 40_crc_engine.md R84, a corner case: leading zero bytes do not change the checksum. -/
def Obligations.LeadingZerosKeepChecksum : Prop :=
  ∀ (n : Nat) (s : List Byte), checksum (List.replicate n 0 ++ s) = checksum s

/-- 40_crc_engine.md R84, a corner case: appending the checksum's own two bytes, low byte first, gives 0. -/
def Obligations.AppendedChecksumLeavesZero : Prop :=
  ∀ s : List Byte,
    checksum (s ++ [(checksum s).extractLsb' 0 8, (checksum s).extractLsb' 8 8]) = 0

/-- 40_crc_engine.md R84, a corner case: on sequences of one length the checksum is linear. -/
def Obligations.ChecksumIsLinear : Prop :=
  ∀ a b : List Byte, a.length = b.length →
    checksum (List.zipWith (· ^^^ ·) a b) = checksum a ^^^ checksum b

/-- 41_frame_extractor.md R121: a change of one byte, the length kept, always changes the checksum, and with it the
digits that the trailer must show. -/
def Obligations.OneChangedByteChangesDigits : Prop :=
  ∀ (p q : List Byte) (b b' : Byte), b ≠ b' →
    checksum (p ++ b :: q) ≠ checksum (p ++ b' :: q) ∧
      digitsMatch (hex4 (checksum (p ++ b :: q))) (checksum (p ++ b' :: q)) = false

/-- 40_crc_engine.md R86, R87: four digits match one checksum value only, and each is an uppercase hex digit. -/
def Obligations.DigitsMatchOneValueInUppercase : Prop :=
  (∀ (d : Vector Byte 4) (v : Word), digitsMatch d v = true ↔ d = hex4 v) ∧
  (∀ v w : Word, hex4 v = hex4 w → v = w) ∧
  (∀ (v : Word) (b : Byte), b ∈ (hex4 v).toList →
    (0x30 ≤ b.toNat ∧ b.toNat ≤ 0x39) ∨ (0x41 ≤ b.toNat ∧ b.toNat ≤ 0x46))

/-! ### Table build -/

/-- 40_crc_engine.md R82: INIT_BUILD writes the next entry, and the last one opens the stream; nothing else changes. -/
def Obligations.InitBuildWritesNextEntry : Prop :=
  ∀ s : State, s.phase = .init → s.buildIdx.toNat < 256 →
    exec .initBuild s = .next
      { s with
        report := none
        table := Memory.write s.table s.buildIdx.toNat (tableEntry (BitVec.ofNat 8 s.buildIdx.toNat))
        buildIdx := BitVec.ofNat 9 (s.buildIdx.toNat + 1)
        phase := if s.buildIdx.toNat = 255 then .seekStart else .init }

/-- 70_reset_and_hazards.md R172: 256 steps of the engine after reset give the whole table and SEEK_START, and leave
everything else as it was. A machine with a fault mark takes no such step (30_encoding.md R67). -/
def Obligations.InitTakes256StepsToFullTable : Prop :=
  ∀ s : State, s.phase = .init → s.buildIdx = 0 → s.faultMark = none → (∀ p ∈ s.agenda.take 256, p = .internal) →
    ∃ t, runSteps 256 s = .next t ∧ t.phase = .seekStart ∧ t.inReady = true ∧ t.tableReady ∧
      t = { s with
            report := none, phase := t.phase, buildIdx := t.buildIdx, table := t.table, agenda := s.agenda.drop 256 }

/-! ### Frame extractor (41_frame_extractor.md) -/

/-- 41_frame_extractor.md R102: the marker is the first byte of a new frame. -/
def Obligations.SsStartOpensFrame : Prop :=
  ∀ s : State, s.phase = .seekStart → s.tableReady → 0 < s.params.maxFrame →
    exec .ssStart s = .next
      { s with
        report := none, fbuf := Memory.write s.fbuf 0 0x2F, flen := 1, crc := 0xDC41, tlen := 0, phase := .seekEnd }

/-- 41_frame_extractor.md R103: end-of-stream here ends the sequence, with no report. -/
def Obligations.SsEosEndsSequence : Prop :=
  ∀ s : State, s.phase = .seekStart →
    exec .ssEos s = .next { s with report := none, phase := .done, seqDone := true }

/-- 41_frame_extractor.md R104: noise changes nothing. -/
def Obligations.SsDiscardChangesNothing : Prop :=
  ∀ (s : State) (b : Byte), s.phase = .seekStart → exec (.ssDiscard b) s = .next { s with report := none }

/-- 41_frame_extractor.md R105, R109: any byte but the terminator joins the frame, a start marker too. -/
def Obligations.SeAccumCapturesByte : Prop :=
  ∀ (s : State) (b : Byte), s.phase = .seekEnd → s.tableReady → s.flen < s.params.maxFrame →
    exec (.seAccum b) s = .next
      { s with
        report := none, fbuf := Memory.write s.fbuf s.flen b, flen := s.flen + 1, crc := crcUpdate s.crc b }

/-- 41_frame_extractor.md R106: the terminator joins the frame and the trailer begins. -/
def Obligations.SeEndCapturesTerminator : Prop :=
  ∀ s : State, s.phase = .seekEnd → s.tableReady → s.flen < s.params.maxFrame →
    exec .seEnd s = .next
      { s with
        report := none, fbuf := Memory.write s.fbuf s.flen 0x21, flen := s.flen + 1, crc := crcUpdate s.crc 0x21
        tlen := 0, phase := .trailer }

/-- 41_frame_extractor.md R108: a byte that finds the buffer full is discarded, and the frame with it. -/
def Obligations.FullBufferDropsFrame : Prop :=
  ∀ (s : State) (i : Instr), (i = .seEnd ∨ ∃ b, i = .seAccum b) → s.phase = .seekEnd →
    s.flen = s.params.maxFrame →
    exec i s = .next
      { s with
        phase := .seekStart, report := some .frameTooLarge, reportLog := s.reportLog ++ [.frameTooLarge] }

/-- 41_frame_extractor.md R107: end-of-stream inside a frame is reported and ends the sequence. -/
def Obligations.SeEosReportsMissingTerminator : Prop :=
  ∀ s : State, s.phase = .seekEnd →
    exec .seEos s = .next
      { s with
        phase := .done, seqDone := true, report := some .streamTerminatorMissing
        reportLog := s.reportLog ++ [.streamTerminatorMissing] }

/-- 41_frame_extractor.md R110 with 10_state.md R16, R17: the first four trailer bytes are kept, the count saturates. -/
def Obligations.TrByteKeepsFourDigits : Prop :=
  ∀ (s : State) (b : Byte), s.phase = .trailer →
    ∃ t, exec (.trByte b) s = .next t ∧ t = { s with report := none, tdig := t.tdig, tlen := t.tlen } ∧
      t.tlen.toNat = min (s.tlen.toNat + 1) 7 ∧
      ∀ k : Fin 4, t.tdig[k] = if k.val = s.tlen.toNat then b else s.tdig[k]

/-- 41_frame_extractor.md R116: the fifth trailer byte is counted and not looked at. -/
def Obligations.FifthTrailerByteIsNotTested : Prop :=
  ∀ (s : State) (b b' : Byte), s.phase = .trailer → s.tlen = 4 →
    exec (.trByte b) s = .next { s with report := none, tlen := 5 } ∧ exec (.trByte b) s = exec (.trByte b') s

/-- 41_frame_extractor.md R111: length first, then digits, then the push, or the wait while the hand-off is full. -/
def Obligations.TrEolVerifiesFrame : Prop :=
  ∀ s : State, s.phase = .trailer →
    (s.tlen ≠ 5 →
      exec .trEol s = .next
        { s with
          phase := .seekStart, report := some .trailerLengthMismatch
          reportLog := s.reportLog ++ [.trailerLengthMismatch] }) ∧
    (s.tlen = 5 → s.tdig ≠ hex4 s.crc →
      exec .trEol s = .next
        { s with
          phase := .seekStart, report := some .checksumMismatch
          reportLog := s.reportLog ++ [.checksumMismatch] }) ∧
    (s.tlen = 5 → s.tdig = hex4 s.crc → s.hq.length < s.params.handoffDepth → ∀ p, s.payload = .ok p →
      exec .trEol s = .next { s with report := none, hq := s.hq ++ [p], phase := .seekStart }) ∧
    (s.tlen = 5 → s.tdig = hex4 s.crc → s.params.handoffDepth ≤ s.hq.length →
      exec .trEol s = .next { s with report := none, phase := .emitWait })

/-- 41_frame_extractor.md R112: end-of-stream inside the trailer drops the frame. -/
def Obligations.TrEosDropsFrame : Prop :=
  ∀ s : State, s.phase = .trailer →
    exec .trEos s = .next
      { s with
        phase := .done, seqDone := true, report := some .trailerLengthMismatch
        reportLog := s.reportLog ++ [.trailerLengthMismatch] }

/-- 20_memory.md R42, R44: a captured byte is the next byte of the payload, and every byte of the frame buffer outside
the one stored to reads as before. -/
def Obligations.CaptureExtendsPayload : Prop :=
  ∀ (s t : State) (i : Instr) (b : Byte), (i = .seAccum b ∨ (i = .seEnd ∧ b = 0x21)) →
    s.phase = .seekEnd → s.flen < s.params.maxFrame → exec i s = .next t →
    (∀ p, s.payload = .ok p → t.payload = .ok (p ++ [b])) ∧
    Memory.read t.fbuf s.flen = some b ∧
    ∀ k, k ≠ s.flen → Memory.read t.fbuf k = Memory.read s.fbuf k

/-- The index of the frame buffer that an operation stores to (41_frame_extractor.md R102, R105, R106). -/
def storedIndex (i : Instr) (s : State) : Option Nat :=
  match i with
  | .ssStart => if s.phase = .seekStart then some 0 else none
  | .seAccum _ => if s.phase = .seekEnd ∧ s.flen < s.params.maxFrame then some s.flen else none
  | .seEnd => if s.phase = .seekEnd ∧ s.flen < s.params.maxFrame then some s.flen else none
  | .reset => none
  | .pop => none
  | .initBuild => none
  | .emitPush => none
  | .ssEos => none
  | .ssDiscard _ => none
  | .seEos => none
  | .trEol => none
  | .trEos => none
  | .trByte _ => none

/-- 10_state.md R10, the column "written by": each element is left alone by every operation that column does not name.
RESET names them all but the table, the frame buffer and the digits, which it leaves unspecified (R28). -/
def Obligations.OnlyNamedOperationsWrite : Prop :=
  ∀ (i : Instr) (s t : State), exec i s = .next t → i ≠ .reset →
    ((∃ b, i = .ssDiscard b ∨ i = .trByte b ∨ (i = .seAccum b ∧ s.flen ≠ s.params.maxFrame)) ∨ i = .pop →
      t.phase = s.phase) ∧
    (i ≠ .initBuild → t.buildIdx = s.buildIdx ∧ t.table = s.table) ∧
    ((∀ b, i ≠ .seAccum b) → i ≠ .ssStart → i ≠ .seEnd → t.crc = s.crc ∧ t.flen = s.flen) ∧
    (∀ k, storedIndex i s ≠ some k → Memory.read t.fbuf k = Memory.read s.fbuf k) ∧
    ((∀ b, i ≠ .trByte b) → t.tdig = s.tdig) ∧
    ((∀ b, i ≠ .trByte b) → i ≠ .ssStart → i ≠ .seEnd → t.tlen = s.tlen) ∧
    (i ≠ .trEol → i ≠ .emitPush → i ≠ .pop → t.hq = s.hq) ∧
    (i ≠ .ssEos → i ≠ .seEos → i ≠ .trEos → t.seqDone = s.seqDone)

/-- 00_scope.md R7 and 10_state.md R27: no operation writes a parameter, takes back a report or a delivery, or touches
what the agents have still to offer. -/
def Obligations.OperationsKeepEnvironment : Prop :=
  ∀ (i : Instr) (s t : State), exec i s = .next t →
    t.params = s.params ∧ t.upstream = s.upstream ∧ t.agenda = s.agenda ∧
      s.reportLog <+: t.reportLog ∧ s.delivered <+: t.delivered ∧ (i ≠ .pop → t.delivered = s.delivered)

/-- The phase an operation of the engine or the upstream is enabled in (30_encoding.md R65). -/
def homePhase : Instr → Option Phase
  | .reset => none
  | .pop => none
  | .initBuild => some .init
  | .emitPush => some .emitWait
  | .ssStart => some .seekStart
  | .ssEos => some .seekStart
  | .ssDiscard _ => some .seekStart
  | .seEnd => some .seekEnd
  | .seEos => some .seekEnd
  | .seAccum _ => some .seekEnd
  | .trEol => some .trailer
  | .trEos => some .trailer
  | .trByte _ => some .trailer

/-- The model's choice (log entry 4) for an operation asked for outside its phase, which no step does: a wait. In a
reserved phase it is the fault of 30_encoding.md R67. -/
def Obligations.OperationOutsideItsPhaseWaits : Prop :=
  ∀ (i : Instr) (s : State) (p : Phase), homePhase i = some p → s.phase ≠ p →
    exec i s = if s.phase.isReserved then .fault .reservedPhase else .next { s with report := none }

/-! ### Hand-off (42_handoff_control.md) -/

/-- 42_handoff_control.md R132: the waiting payload enters when there is space. That EMIT_PUSH asked for while there is
none answers the old state is the model's choice (log entry 4) for the wait of 30_encoding.md R66, EMIT_BLOCKED. -/
def Obligations.EmitPushEmitsWhenRoom : Prop :=
  ∀ s : State, s.phase = .emitWait →
    (s.hq.length < s.params.handoffDepth → ∀ p, s.payload = .ok p →
      exec .emitPush s = .next { s with report := none, hq := s.hq ++ [p], phase := .seekStart }) ∧
    (s.params.handoffDepth ≤ s.hq.length → exec .emitPush s = .next { s with report := none })

/-- 42_handoff_control.md R133: POP takes the head in any phase. The model's own are: that POP on an empty hand-off
answers a next state (log entry 4), the history `delivered` (log entry 8), and that a POP which finds a reserved phase
records the fault (log entry 6). The last clause says that the mark moves in the reserved phases only. -/
def Obligations.PopDeliversHead : Prop :=
  ∀ s : State,
    (∀ p rest, s.hq = p :: rest →
      exec .pop s = .next
        { s with report := none, faultMark := s.observedFault, hq := rest, delivered := s.delivered ++ [p] }) ∧
    (s.hq = [] → exec .pop s = .next { s with report := none, faultMark := s.observedFault }) ∧
    (s.phase.isReserved = false → s.observedFault = s.faultMark)

/-- 20_memory.md R43, R55: payloads leave in the order they entered, each enters whole, and no operation but RESET
loses or invents one. -/
def Obligations.HandoffIsFifo : Prop :=
  ∀ (i : Instr) (s t : State), exec i s = .next t → i ≠ .reset →
    t.delivered ++ t.hq = s.delivered ++ s.hq ∨
    ∃ p, s.payload = .ok p ∧ t.delivered ++ t.hq = s.delivered ++ s.hq ++ [p] ∧ (i = .trEol ∨ i = .emitPush)

/-- 42_handoff_control.md R138: what a step adds to the hand-off is a legal payload whose trailer was 6 bytes long and
showed its own checksum. -/
def Obligations.OnlyVerifiedPayloadsEnter : Prop :=
  ∀ s t : State, Inv s → step s = .next t → ∀ p, t.hq = s.hq ++ [p] →
    LegalPayload s.params.maxFrame p ∧ s.tlen = 5 ∧ s.tdig = hex4 (checksum p)

/-- 10_state.md R29, item 6: EMIT_WAIT is entered by TR_EOL alone, and only with the hand-off full. -/
def Obligations.EmitWaitEnteredOnlyWhenFull : Prop :=
  ∀ (i : Instr) (s t : State), Inv s → exec i s = .next t → s.phase ≠ .emitWait → t.phase = .emitWait →
    i = .trEol ∧ s.hqFull = true ∧ t.hqFull = true

/-- 42_handoff_control.md R135: the end-of-sequence signal, once up, stays up until RESET. -/
def Obligations.EndOfSequenceStaysUntilReset : Prop :=
  ∀ s t : State, Inv s → s.outEnd = true → s.nextPort ≠ .reset → step s = .next t →
    t.outEnd = true ∧ t.delivered = s.delivered

/-- 42_handoff_control.md R137: in DONE no input is consumed and only POP and RESET have a step. That every other turn
answers a next state which only spends the agenda is the model's choice (log entries 2 and 4). -/
def Obligations.DoneIsTerminal : Prop :=
  ∀ s : State, s.phase = .done → s.nextPort ≠ .reset →
    s.enabled .internal = false ∧ s.inReady = false ∧
    ∃ t, step s = .next t ∧ t.phase = .done ∧ t.upstream = s.upstream ∧ t.report = none ∧
      (s.nextPort ≠ .pop → t = { s with report := none, agenda := s.agenda.tail }) ∧
      (s.nextPort = .pop → t.hq = s.hq.tail ∧ t.delivered = s.delivered ++ s.hq.take 1)

/-! ### Reports (60_exceptions.md) -/

/-- 60_exceptions.md R150, the column "raised by": which operation raises which report, and when. -/
def Obligations.ReportsNameTheirCause : Prop :=
  ∀ (i : Instr) (s t : State) (k : Report), exec i s = .next t → t.report = some k →
    (k = .streamTerminatorMissing ∧ i = .seEos) ∨
    (k = .trailerLengthMismatch ∧ ((i = .trEol ∧ s.tlen ≠ 5) ∨ i = .trEos)) ∨
    (k = .checksumMismatch ∧ i = .trEol ∧ s.tlen = 5 ∧ s.tdig ≠ hex4 s.crc) ∨
    (k = .frameTooLarge ∧ s.flen = s.params.maxFrame ∧ (i = .seEnd ∨ ∃ b, i = .seAccum b))

/-- 60_exceptions.md R150, R154: a step shows at most one report, and the history grows by exactly what is shown. -/
def Obligations.HistoryGrowsByShownReport : Prop :=
  ∀ s t : State, step s = .next t → t.reportLog = s.reportLog ++ t.report.toList

/-- 60_exceptions.md R150: the four codes, and 0 for no report. -/
def Obligations.ReportCodesAreOneToFour : Prop :=
  (∀ s : State, s.repCode = 0 ↔ s.repValid = false) ∧ (∀ s : State, s.repCode.toNat ≤ 4) ∧
  Report.streamTerminatorMissing.code = 1 ∧ Report.trailerLengthMismatch.code = 2 ∧
  Report.checksumMismatch.code = 3 ∧ Report.frameTooLarge.code = 4

/-- 60_exceptions.md R152, R155 and 41_frame_extractor.md R115: a step that reports goes to SEEK_START, or to DONE at
end-of-stream; it pushes nothing, keeps the dropped frame's registers, and consumed exactly one symbol. -/
def Obligations.ReportedFrameIsDropped : Prop :=
  ∀ s t : State, step s = .next t → t.report ≠ none →
    (t.phase = .seekStart ∨ t.phase = .done) ∧ t.hq = s.hq ∧ t.delivered = s.delivered ∧
      t.fbuf = s.fbuf ∧ t.flen = s.flen ∧ t.crc = s.crc ∧ t.tlen = s.tlen ∧ t.tdig = s.tdig ∧
      ∃ x, s.upstream = x :: t.upstream ∧ (t.phase = .done ↔ x.getLsbD 8 = true)

/-! ### Faults and reset (30_encoding.md R67, 60_exceptions.md R164, 70_reset_and_hazards.md) -/

/-- 70_reset_and_hazards.md R170: RESET puts every element at its reset value, in every phase. What it leaves
unspecified (the digits) is left open here; that the table and the buffer hold no value is 92_eei_decisions.md D26. -/
def Obligations.ResetClearsBlock : Prop :=
  ∀ s : State, ∃ t, exec .reset s = .next t ∧
    t.phase = .init ∧ t.buildIdx = 0 ∧ t.crc = 0 ∧ t.flen = 0 ∧ t.tlen = 0 ∧ t.hq = [] ∧ t.seqDone = false ∧
    t.report = none ∧ t.reportLog = s.reportLog ∧ t.delivered = s.delivered ∧ t.params = s.params ∧
    t.upstream = s.upstream ∧ t.agenda = s.agenda ∧
    t.inReady = false ∧ t.outValid = false ∧ t.outEnd = false ∧ t.tableValid = false ∧
    ∀ k, Memory.read t.table k = none ∧ Memory.read t.fbuf k = none

/-- 10_state.md R28, 70_reset_and_hazards.md R171: the state the machine starts from. -/
def Obligations.ResetStateValues : Prop :=
  ∀ p : Params, (State.resetWith p).phase = .init ∧ (State.resetWith p).buildIdx = 0 ∧
    (State.resetWith p).crc = 0 ∧ (State.resetWith p).flen = 0 ∧ (State.resetWith p).tlen = 0 ∧
    (State.resetWith p).hq = [] ∧ (State.resetWith p).seqDone = false ∧
    (State.resetWith p).inReady = false ∧ (State.resetWith p).outValid = false ∧
    (State.resetWith p).outEnd = false ∧ (State.resetWith p).repValid = false

/-- 30_encoding.md R67, 60_exceptions.md R164: a machine that finds `phase` in 6 or 7 records the fault ReservedPhase,
and a machine that has found a fault takes no further engine or input step, in any phase: such a turn only passes. RESET
and POP still apply, and keep the mark (log entry 6). -/
def Obligations.ReservedPhaseStopsEngine : Prop :=
  ∀ s : State,
    (s.phase.isReserved = true → s.faultMark = none → s.observedFault = some .reservedPhase) ∧
    (∀ f, s.faultMark = some f → s.observedFault = some f) ∧
    (s.observedFault ≠ none →
      (s.nextPort = .internal ∨ s.nextPort = .input →
        step s = .next { s with report := none, agenda := s.agenda.tail, faultMark := s.observedFault }) ∧
      (s.nextPort = .reset → ∃ t, step s = .next t ∧ t.phase = .init ∧ t.hq = [] ∧ t.faultMark = s.observedFault) ∧
      (s.nextPort = .pop → ∃ t, step s = .next t ∧ t.hq = s.hq.tail ∧ t.faultMark = s.observedFault))

/-- 60_exceptions.md R164: a fault mark is kept for the rest of the run, across RESET too, and the run is never a
finished one. -/
def Obligations.FaultMarkIsPermanent : Prop :=
  ∀ s t : State, Reaches s t → s.faultMark ≠ none → t.faultMark = s.faultMark ∧ t.isFinished = false

/-- 20_memory.md R41: a table read before the table is valid is the fault TableNotBuilt, through each operation that
reads it. Where `flen` is above MAX_FRAME the fault BufferOverflow applies too, and that TableNotBuilt is the one named
is the model's choice (log entry 12). -/
def Obligations.UnbuiltTableReadFaults : Prop :=
  ∀ s : State, s.tableValid = false →
    (∀ i : Byte, s.tableRead i = .error .tableNotBuilt) ∧
    (s.phase = .seekStart → 0 < s.params.maxFrame → exec .ssStart s = .fault .tableNotBuilt) ∧
    (s.phase = .seekEnd → s.flen ≠ s.params.maxFrame →
      exec .seEnd s = .fault .tableNotBuilt ∧ ∀ b, exec (.seAccum b) s = .fault .tableNotBuilt)

/-! ### Steps (30_encoding.md R60, R61, R66; 70_reset_and_hazards.md R183) -/

/-- 30_encoding.md R60, R64: the turn's word, with the phase register's copy in it, selects the operation that runs. The
turn is spent, and an input transfer has consumed its symbol. A fault that the operation meets is recorded, with the
symbol still offered (60_exceptions.md R164; log entry 6). A machine with a fault mark runs POP and RESET only
(30_encoding.md R67). -/
def Obligations.StepRunsDecodedOperation : Prop :=
  ∀ (s u : State) (i : Instr), (s.nextPort = .input → s.upstream ≠ []) →
    (s.nextPort = .internal ∨ s.nextPort = .input → s.faultMark = none) →
    decodeWord (s.opWord s.nextPort) = .ok i →
    u = { s with
          agenda := s.agenda.tail
          upstream := if s.nextPort = .input then s.upstream.tail else s.upstream } →
    (∀ t, exec i u = .next t → step s = .next t) ∧
    (∀ f, exec i u = .fault f →
      step s = .next { s with report := none, agenda := s.agenda.tail, faultMark := some f }) ∧
    ∀ r, exec i u ≠ .refused r

/-- 30_encoding.md R60, R63: the fields of the word that a turn forms. -/
def Obligations.TurnWordCarriesPhaseAndSymbol : Prop :=
  ∀ (s : State) (p : Port),
    opPort (s.opWord p) = p ∧ opPhase (s.opWord p) = s.phase ∧ (p ≠ .input → opSymbol (s.opWord p) = 0) ∧
    ∀ x rest, p = .input → s.upstream = x :: rest → opSymbol (s.opWord p) = x

/-- 30_encoding.md R61, R66 and 70_reset_and_hazards.md R174: a port that is not enabled has no step. Nothing of the
block changes, and the upstream still holds its symbol. -/
def Obligations.DisabledTurnWaits : Prop :=
  ∀ s : State, s.phase.isReserved = false → s.enabled s.nextPort = false →
    step s = .next { s with report := none, agenda := s.agenda.tail }

/-- 30_encoding.md R61: the engine and the upstream never both have a step (70_reset_and_hazards.md R183). -/
def Obligations.InternalAndInputExclude : Prop :=
  ∀ s : State, s.enabled .internal = true → s.enabled .input = false

/-- The model's choice (log entry 2) of who acts while the agenda is empty: the eager order of
70_reset_and_hazards.md R183. -/
def Obligations.EmptyAgendaIsEager : Prop :=
  ∀ s : State, s.agenda = [] →
    (s.enabled .internal = true → s.nextPort = .internal) ∧
    (s.enabled .internal = false → s.enabled .input = true → s.nextPort = .input) ∧
    (∀ (p : Port) (rest : List Port), ({ s with agenda := p :: rest } : State).nextPort = p)

/-! ### The machine as a whole -/

/-- 10_state.md R28, R29: the invariants hold after reset, for every legal value of the parameters. -/
def Obligations.ResetMeetsInvariants : Prop :=
  ∀ p : Params, p.wf = true → Inv (State.resetWith p)

/-- 10_state.md R29: every step keeps the invariants, from every state that meets them, for every schedule and every
input. -/
def Obligations.EveryStepKeepsInvariants : Prop :=
  ∀ s t : State, Inv s → step s = .next t → Inv t

/-- 60_exceptions.md R164: no rule reaches a model fault. From a state that meets the invariants every operation answers
a next state without a fault mark, and so does a step, whoever's turn it is and whatever the upstream offers. -/
def Obligations.GoodStatesNeverFault : Prop :=
  ∀ s : State, Inv s →
    (∀ i : Instr, ∃ t, exec i s = .next t ∧ t.faultMark = none) ∧ ∃ t, step s = .next t ∧ t.faultMark = none

/-- 20_memory.md R41, R42: memories in canonical form that read alike are the same data. -/
def Obligations.CanonicalMemoriesReadAlikeAreEqual : Prop :=
  ∀ m m' : List (Nat × Byte), Memory.wf m → Memory.wf m' →
    (∀ k, Memory.read m k = Memory.read m' k) → m = m'

/-- 41_frame_extractor.md R120: a valid frame that begins in SEEK_START yields exactly its body, with no report; while
the hand-off is full the body waits in EMIT_WAIT. It says so of one order of the agents' turns, the upstream's turns one
after the other (log entry 2); `OutputIndependentOfSchedule` carries the output over to the other orders. -/
def Obligations.ValidFrameYieldsItsBody : Prop :=
  ∀ (s : State) (body : List Byte) (rest : List Symbol) (turns : List Port),
    Inv s → s.phase = .seekStart → LegalPayload s.params.maxFrame body →
    s.upstream = (frameBytes body).map byteSymbol ++ rest →
    s.agenda = List.replicate (frameBytes body).length .input ++ turns →
    ∃ t, runSteps (frameBytes body).length s = .next t ∧
      t.upstream = rest ∧ t.agenda = turns ∧ t.reportLog = s.reportLog ∧ t.delivered = s.delivered ∧
      (s.hqFull = false → t.phase = .seekStart ∧ t.hq = s.hq ++ [body]) ∧
      (s.hqFull = true → t.phase = .emitWait ∧ t.hq = s.hq ∧ t.payload = .ok body)

/-- 41_frame_extractor.md R119: if no start marker in the stream is followed later by a terminator, no payload ever
enters the hand-off, whatever the schedule. -/
def Obligations.NoMarkedRegionNoPayload : Prop :=
  ∀ s t : State, Inv s → (s.phase = .init ∨ s.phase = .seekStart) → s.hq = [] → s.delivered = [] →
    (∀ pre mid post : List Symbol,
      s.upstream ≠ pre ++ byteSymbol 0x2F :: (mid ++ byteSymbol 0x21 :: post)) →
    Reaches s t → t.hq = [] ∧ t.delivered = []

/-- 70_reset_and_hazards.md R183: a POP and an engine or input step can be taken in either order. Where the hand-off is
full, a verified payload that could not enter before the POP enters by EMIT_PUSH after it. -/
def Obligations.PopCommutesWithOtherSteps : Prop :=
  ∀ (s t u v : State) (i : Instr), Inv s → s.hq ≠ [] → homePhase i ≠ none →
    exec i s = .next t → exec .pop s = .next u → exec i u = .next v →
    (∃ w, exec .pop t = .next w ∧ w = { v with report := none }) ∨
    (s.hqFull = true ∧ (i = .trEol ∨ i = .emitPush) ∧
      ∃ w x, exec .pop t = .next w ∧ exec .emitPush w = .next x ∧ x = { v with report := none })

/-- 70_reset_and_hazards.md R183: in runs without RESET that come to the end of the sequence, the payloads popped and the
reports raised do not depend on the schedule. -/
def Obligations.OutputIndependentOfSchedule : Prop :=
  ∀ (s t u : State) (a b : List Port), Inv s → .reset ∉ a → .reset ∉ b →
    Reaches { s with agenda := a } t → Reaches { s with agenda := b } u →
    t.outEnd = true → u.outEnd = true →
    t.delivered = u.delivered ∧ t.reportLog = u.reportLog

/-- 70_reset_and_hazards.md R182 with 42_handoff_control.md R136: if the stream ends in end-of-stream, a schedule that
gives every agent its turn, again and again, ends the sequence, with every payload delivered. -/
def Obligations.FairTurnsReachEndOfSequence : Prop :=
  ∀ (s : State) (n : Nat), Inv s → (s.phase = .done ∨ ∃ x ∈ s.upstream, x.getLsbD 8 = true) →
    256 + s.upstream.length + s.hq.length + 1 ≤ n →
    s.agenda = (List.replicate n [Port.internal, .input, .pop]).flatten →
    ∃ t, runSteps (3 * n) s = .next t ∧ t.outEnd = true

/-- 30_encoding.md R70 with 70_reset_and_hazards.md R183: the run of a stream program takes the internal steps whenever
they are enabled. From a state that meets the invariants it ends, in such a state, where neither an internal step nor a
transfer is left to take. How a line that the block is not ready for is treated is log entry 13. -/
def Obligations.StreamProgramLeavesNoStepPending : Prop :=
  ∀ (program : List StreamLine) (s : State), Inv s →
    ∃ t, runProgram program s = .next t ∧ Inv t ∧ t.enabled .internal = false ∧ t.enabled .input = false
end

