-- ==== Sys2Proof/Laws/Crc.lean ====
section
/-! SUPPORT. Small laws of the CRC functions: the bit step is linear, and the checksum is a left fold
(40_crc_engine.md R81, R84, R88). -/

namespace Sys2Proof.Machine

/-- One bit of the reflected CRC is linear. -/
theorem crcBit_xor (a b : Word) : crcBit (a ^^^ b) = crcBit a ^^^ crcBit b := by
  unfold crcBit
  rw [BitVec.getLsbD_xor, BitVec.ushiftRight_xor_distrib]
  cases a.getLsbD 0 <;> cases b.getLsbD 0
  · simp
  · simp only [Bool.false_xor, if_true, Bool.false_eq_true, if_false]
    ac_rfl
  · simp only [Bool.xor_false, if_true, Bool.false_eq_true, if_false]
    ac_rfl
  · have h : a >>> 1 ^^^ Config.poly ^^^ (b >>> 1 ^^^ Config.poly)
        = a >>> 1 ^^^ b >>> 1 ^^^ (Config.poly ^^^ Config.poly) := by ac_rfl
    simp [h]

/-- So are its repetitions. -/
theorem crcBits_xor (n : Nat) (a b : Word) :
    Nat.repeat crcBit n (a ^^^ b) = Nat.repeat crcBit n a ^^^ Nat.repeat crcBit n b := by
  induction n with
  | zero => rfl
  | succ n ih => simp [Nat.repeat, ih, crcBit_xor]

@[simp] theorem checksum_nil : checksum [] = 0 := rfl

theorem checksum_append (s r : List Byte) : checksum (s ++ r) = r.foldl crcUpdate (checksum s) :=
  List.foldl_append ..

/-- Folding in one more byte is one more update (40_crc_engine.md R88). -/
theorem checksum_snoc (s : List Byte) (b : Byte) : checksum (s ++ [b]) = crcUpdate (checksum s) b := by
  simp [checksum_append]

end Sys2Proof.Machine
end

