-- ==== Sys2Proof/Laws/Memory.lean ====
section
/-! SUPPORT. The laws of the sparse memories (20_memory.md R41, R42): a read after a write, and the canonical form. -/

namespace Sys2Proof.Machine

variable {α : Type}

@[simp] theorem memory_read_nil (k : Nat) : Memory.read ([] : List (Nat × α)) k = none := rfl

/-- Read after write: the written index gives the written value, and every other index is left alone. -/
theorem memory_read_write (m : List (Nat × α)) (k : Nat) (v : α) (j : Nat) :
    Memory.read (Memory.write m k v) j = if k = j then some v else Memory.read m j := by
  induction m with
  | nil => rfl
  | cons e m ih =>
    obtain ⟨a, u⟩ := e
    by_cases h1 : k < a
    · simp [Memory.write, Memory.read, h1]
    · by_cases h2 : k = a
      · subst h2
        by_cases h3 : k = j <;> simp [Memory.write, Memory.read, h3]
      · by_cases h3 : a = j
        · subst h3
          simp [Memory.write, Memory.read, h1, h2]
        · simp [Memory.write, Memory.read, h1, h2, h3, ih]

@[simp] theorem memory_read_write_same (m : List (Nat × α)) (k : Nat) (v : α) :
    Memory.read (Memory.write m k v) k = some v := by simp [memory_read_write]

theorem memory_read_write_other (m : List (Nat × α)) {k j : Nat} (v : α) (h : k ≠ j) :
    Memory.read (Memory.write m k v) j = Memory.read m j := by simp [memory_read_write, h]

/-- The indices a written memory lists are those listed before and the one written. -/
theorem memory_write_mem {m : List (Nat × α)} {k : Nat} {v : α} {x : Nat × α}
    (h : x ∈ Memory.write m k v) : x = (k, v) ∨ x ∈ m := by
  induction m with
  | nil => simpa [Memory.write] using h
  | cons e m ih =>
    obtain ⟨a, u⟩ := e
    simp only [Memory.write] at h
    split at h
    · simpa using h
    · split at h
      · simp only [List.mem_cons] at h ⊢
        tauto
      · simp only [List.mem_cons] at h ⊢
        rcases h with h | h
        · tauto
        · rcases ih h with h | h <;> tauto

@[simp] theorem memory_wf_nil : Memory.wf ([] : List (Nat × α)) := List.Pairwise.nil

/-- Every write keeps the canonical form. -/
theorem memory_wf_write {m : List (Nat × α)} (k : Nat) (v : α) (h : Memory.wf m) :
    Memory.wf (Memory.write m k v) := by
  induction m with
  | nil => simp [Memory.write]
  | cons e m ih =>
    obtain ⟨a, u⟩ := e
    have hh := List.pairwise_cons.mp h
    simp only [Memory.write]
    split
    · rename_i hk
      refine List.pairwise_cons.mpr ⟨fun x hx => ?_, h⟩
      rcases List.mem_cons.mp hx with rfl | hx
      · exact hk
      · exact Nat.lt_trans hk (hh.1 x hx)
    · rename_i hk
      split
      · rename_i hka
        subst hka
        exact List.pairwise_cons.mpr ⟨hh.1, hh.2⟩
      · rename_i hka
        refine List.pairwise_cons.mpr ⟨fun x hx => ?_, ih hh.2⟩
        rcases memory_write_mem hx with rfl | hx
        · change a < k
          omega
        · exact hh.1 x hx

/-- TableWrite keeps the canonical form. -/
theorem tableWrite_wf {s : State} (i : Byte) (v : Word) (h : Memory.wf s.table) : Memory.wf (s.tableWrite i v).table :=
  memory_wf_write _ _ h

/-- BufAppend keeps the canonical form. -/
theorem bufAppend_wf {s t : State} {b : Byte} (h : Memory.wf s.fbuf) (ht : s.bufAppend b = .ok t) : Memory.wf t.fbuf := by
  unfold State.bufAppend at ht
  split at ht
  · cases ht
    exact memory_wf_write _ _ h
  · cases ht

/-- The memories after reset are in canonical form. -/
theorem reset_memories_wf : Memory.wf State.reset.table ∧ Memory.wf State.reset.fbuf := ⟨memory_wf_nil, memory_wf_nil⟩

end Sys2Proof.Machine
end

