-- ==== Sys2Proof/Laws/State.lean ====
section
/-! SUPPORT. One lemma per field for each named update of the state, so that no proof unfolds a record update. -/

namespace Sys2Proof.Machine

/-! ### `begin` -/

@[simp] theorem begin_phase (s : State) : (s.begin).phase = s.phase := rfl
@[simp] theorem begin_buildIdx (s : State) : (s.begin).buildIdx = s.buildIdx := rfl
@[simp] theorem begin_table (s : State) : (s.begin).table = s.table := rfl
@[simp] theorem begin_crc (s : State) : (s.begin).crc = s.crc := rfl
@[simp] theorem begin_fbuf (s : State) : (s.begin).fbuf = s.fbuf := rfl
@[simp] theorem begin_flen (s : State) : (s.begin).flen = s.flen := rfl
@[simp] theorem begin_tlen (s : State) : (s.begin).tlen = s.tlen := rfl
@[simp] theorem begin_tdig (s : State) : (s.begin).tdig = s.tdig := rfl
@[simp] theorem begin_hq (s : State) : (s.begin).hq = s.hq := rfl
@[simp] theorem begin_seqDone (s : State) : (s.begin).seqDone = s.seqDone := rfl
@[simp] theorem begin_params (s : State) : (s.begin).params = s.params := rfl
@[simp] theorem begin_report (s : State) : (s.begin).report = none := rfl
@[simp] theorem begin_reportLog (s : State) : (s.begin).reportLog = s.reportLog := rfl
@[simp] theorem begin_delivered (s : State) : (s.begin).delivered = s.delivered := rfl
@[simp] theorem begin_upstream (s : State) : (s.begin).upstream = s.upstream := rfl
@[simp] theorem begin_agenda (s : State) : (s.begin).agenda = s.agenda := rfl
@[simp] theorem begin_faultMark (s : State) : (s.begin).faultMark = s.observedFault := rfl
@[simp] theorem begin_resetCount (s : State) : (s.begin).resetCount = s.resetCount := rfl

/-! ### `recordFault` -/

@[simp] theorem recordFault_phase (s : State) (f : Fault) : (s.recordFault f).phase = s.phase := rfl
@[simp] theorem recordFault_buildIdx (s : State) (f : Fault) : (s.recordFault f).buildIdx = s.buildIdx := rfl
@[simp] theorem recordFault_table (s : State) (f : Fault) : (s.recordFault f).table = s.table := rfl
@[simp] theorem recordFault_crc (s : State) (f : Fault) : (s.recordFault f).crc = s.crc := rfl
@[simp] theorem recordFault_fbuf (s : State) (f : Fault) : (s.recordFault f).fbuf = s.fbuf := rfl
@[simp] theorem recordFault_flen (s : State) (f : Fault) : (s.recordFault f).flen = s.flen := rfl
@[simp] theorem recordFault_tlen (s : State) (f : Fault) : (s.recordFault f).tlen = s.tlen := rfl
@[simp] theorem recordFault_tdig (s : State) (f : Fault) : (s.recordFault f).tdig = s.tdig := rfl
@[simp] theorem recordFault_hq (s : State) (f : Fault) : (s.recordFault f).hq = s.hq := rfl
@[simp] theorem recordFault_seqDone (s : State) (f : Fault) : (s.recordFault f).seqDone = s.seqDone := rfl
@[simp] theorem recordFault_params (s : State) (f : Fault) : (s.recordFault f).params = s.params := rfl
@[simp] theorem recordFault_report (s : State) (f : Fault) : (s.recordFault f).report = none := rfl
@[simp] theorem recordFault_reportLog (s : State) (f : Fault) : (s.recordFault f).reportLog = s.reportLog := rfl
@[simp] theorem recordFault_delivered (s : State) (f : Fault) : (s.recordFault f).delivered = s.delivered := rfl
@[simp] theorem recordFault_upstream (s : State) (f : Fault) : (s.recordFault f).upstream = s.upstream := rfl
@[simp] theorem recordFault_agenda (s : State) (f : Fault) : (s.recordFault f).agenda = s.agenda := rfl
@[simp] theorem recordFault_faultMark (s : State) (f : Fault) : (s.recordFault f).faultMark = some (s.faultMark.getD f) := rfl
@[simp] theorem recordFault_resetCount (s : State) (f : Fault) : (s.recordFault f).resetCount = s.resetCount := rfl

/-! ### `raise` -/

@[simp] theorem raise_phase (s : State) (k : Report) : (s.raise k).phase = s.phase := rfl
@[simp] theorem raise_buildIdx (s : State) (k : Report) : (s.raise k).buildIdx = s.buildIdx := rfl
@[simp] theorem raise_table (s : State) (k : Report) : (s.raise k).table = s.table := rfl
@[simp] theorem raise_crc (s : State) (k : Report) : (s.raise k).crc = s.crc := rfl
@[simp] theorem raise_fbuf (s : State) (k : Report) : (s.raise k).fbuf = s.fbuf := rfl
@[simp] theorem raise_flen (s : State) (k : Report) : (s.raise k).flen = s.flen := rfl
@[simp] theorem raise_tlen (s : State) (k : Report) : (s.raise k).tlen = s.tlen := rfl
@[simp] theorem raise_tdig (s : State) (k : Report) : (s.raise k).tdig = s.tdig := rfl
@[simp] theorem raise_hq (s : State) (k : Report) : (s.raise k).hq = s.hq := rfl
@[simp] theorem raise_seqDone (s : State) (k : Report) : (s.raise k).seqDone = s.seqDone := rfl
@[simp] theorem raise_params (s : State) (k : Report) : (s.raise k).params = s.params := rfl
@[simp] theorem raise_report (s : State) (k : Report) : (s.raise k).report = some k := rfl
@[simp] theorem raise_reportLog (s : State) (k : Report) : (s.raise k).reportLog = s.reportLog ++ [k] := rfl
@[simp] theorem raise_delivered (s : State) (k : Report) : (s.raise k).delivered = s.delivered := rfl
@[simp] theorem raise_upstream (s : State) (k : Report) : (s.raise k).upstream = s.upstream := rfl
@[simp] theorem raise_agenda (s : State) (k : Report) : (s.raise k).agenda = s.agenda := rfl
@[simp] theorem raise_faultMark (s : State) (k : Report) : (s.raise k).faultMark = s.faultMark := rfl
@[simp] theorem raise_resetCount (s : State) (k : Report) : (s.raise k).resetCount = s.resetCount := rfl

/-! ### `recover` -/

@[simp] theorem recover_phase (s : State) (k : Report) (p : Phase) : (s.recover k p).phase = p := rfl
@[simp] theorem recover_buildIdx (s : State) (k : Report) (p : Phase) : (s.recover k p).buildIdx = s.buildIdx := rfl
@[simp] theorem recover_table (s : State) (k : Report) (p : Phase) : (s.recover k p).table = s.table := rfl
@[simp] theorem recover_crc (s : State) (k : Report) (p : Phase) : (s.recover k p).crc = s.crc := rfl
@[simp] theorem recover_fbuf (s : State) (k : Report) (p : Phase) : (s.recover k p).fbuf = s.fbuf := rfl
@[simp] theorem recover_flen (s : State) (k : Report) (p : Phase) : (s.recover k p).flen = s.flen := rfl
@[simp] theorem recover_tlen (s : State) (k : Report) (p : Phase) : (s.recover k p).tlen = s.tlen := rfl
@[simp] theorem recover_tdig (s : State) (k : Report) (p : Phase) : (s.recover k p).tdig = s.tdig := rfl
@[simp] theorem recover_hq (s : State) (k : Report) (p : Phase) : (s.recover k p).hq = s.hq := rfl
@[simp] theorem recover_seqDone (s : State) (k : Report) (p : Phase) : (s.recover k p).seqDone = s.seqDone := rfl
@[simp] theorem recover_params (s : State) (k : Report) (p : Phase) : (s.recover k p).params = s.params := rfl
@[simp] theorem recover_report (s : State) (k : Report) (p : Phase) : (s.recover k p).report = some k := rfl
@[simp] theorem recover_reportLog (s : State) (k : Report) (p : Phase) : (s.recover k p).reportLog = s.reportLog ++ [k] := rfl
@[simp] theorem recover_delivered (s : State) (k : Report) (p : Phase) : (s.recover k p).delivered = s.delivered := rfl
@[simp] theorem recover_upstream (s : State) (k : Report) (p : Phase) : (s.recover k p).upstream = s.upstream := rfl
@[simp] theorem recover_agenda (s : State) (k : Report) (p : Phase) : (s.recover k p).agenda = s.agenda := rfl
@[simp] theorem recover_faultMark (s : State) (k : Report) (p : Phase) : (s.recover k p).faultMark = s.faultMark := rfl
@[simp] theorem recover_resetCount (s : State) (k : Report) (p : Phase) : (s.recover k p).resetCount = s.resetCount := rfl

/-! ### `endStream` -/

@[simp] theorem endStream_phase (s : State) : (s.endStream).phase = .done := rfl
@[simp] theorem endStream_buildIdx (s : State) : (s.endStream).buildIdx = s.buildIdx := rfl
@[simp] theorem endStream_table (s : State) : (s.endStream).table = s.table := rfl
@[simp] theorem endStream_crc (s : State) : (s.endStream).crc = s.crc := rfl
@[simp] theorem endStream_fbuf (s : State) : (s.endStream).fbuf = s.fbuf := rfl
@[simp] theorem endStream_flen (s : State) : (s.endStream).flen = s.flen := rfl
@[simp] theorem endStream_tlen (s : State) : (s.endStream).tlen = s.tlen := rfl
@[simp] theorem endStream_tdig (s : State) : (s.endStream).tdig = s.tdig := rfl
@[simp] theorem endStream_hq (s : State) : (s.endStream).hq = s.hq := rfl
@[simp] theorem endStream_seqDone (s : State) : (s.endStream).seqDone = true := rfl
@[simp] theorem endStream_params (s : State) : (s.endStream).params = s.params := rfl
@[simp] theorem endStream_report (s : State) : (s.endStream).report = s.report := rfl
@[simp] theorem endStream_reportLog (s : State) : (s.endStream).reportLog = s.reportLog := rfl
@[simp] theorem endStream_delivered (s : State) : (s.endStream).delivered = s.delivered := rfl
@[simp] theorem endStream_upstream (s : State) : (s.endStream).upstream = s.upstream := rfl
@[simp] theorem endStream_agenda (s : State) : (s.endStream).agenda = s.agenda := rfl
@[simp] theorem endStream_faultMark (s : State) : (s.endStream).faultMark = s.faultMark := rfl
@[simp] theorem endStream_resetCount (s : State) : (s.endStream).resetCount = s.resetCount := rfl

/-! ### `tableWrite` -/

@[simp] theorem tableWrite_phase (s : State) (i : Byte) (v : Word) : (s.tableWrite i v).phase = s.phase := rfl
@[simp] theorem tableWrite_buildIdx (s : State) (i : Byte) (v : Word) : (s.tableWrite i v).buildIdx = s.buildIdx := rfl
@[simp] theorem tableWrite_table (s : State) (i : Byte) (v : Word) : (s.tableWrite i v).table = Memory.write s.table i.toNat v := rfl
@[simp] theorem tableWrite_crc (s : State) (i : Byte) (v : Word) : (s.tableWrite i v).crc = s.crc := rfl
@[simp] theorem tableWrite_fbuf (s : State) (i : Byte) (v : Word) : (s.tableWrite i v).fbuf = s.fbuf := rfl
@[simp] theorem tableWrite_flen (s : State) (i : Byte) (v : Word) : (s.tableWrite i v).flen = s.flen := rfl
@[simp] theorem tableWrite_tlen (s : State) (i : Byte) (v : Word) : (s.tableWrite i v).tlen = s.tlen := rfl
@[simp] theorem tableWrite_tdig (s : State) (i : Byte) (v : Word) : (s.tableWrite i v).tdig = s.tdig := rfl
@[simp] theorem tableWrite_hq (s : State) (i : Byte) (v : Word) : (s.tableWrite i v).hq = s.hq := rfl
@[simp] theorem tableWrite_seqDone (s : State) (i : Byte) (v : Word) : (s.tableWrite i v).seqDone = s.seqDone := rfl
@[simp] theorem tableWrite_params (s : State) (i : Byte) (v : Word) : (s.tableWrite i v).params = s.params := rfl
@[simp] theorem tableWrite_report (s : State) (i : Byte) (v : Word) : (s.tableWrite i v).report = s.report := rfl
@[simp] theorem tableWrite_reportLog (s : State) (i : Byte) (v : Word) : (s.tableWrite i v).reportLog = s.reportLog := rfl
@[simp] theorem tableWrite_delivered (s : State) (i : Byte) (v : Word) : (s.tableWrite i v).delivered = s.delivered := rfl
@[simp] theorem tableWrite_upstream (s : State) (i : Byte) (v : Word) : (s.tableWrite i v).upstream = s.upstream := rfl
@[simp] theorem tableWrite_agenda (s : State) (i : Byte) (v : Word) : (s.tableWrite i v).agenda = s.agenda := rfl
@[simp] theorem tableWrite_faultMark (s : State) (i : Byte) (v : Word) : (s.tableWrite i v).faultMark = s.faultMark := rfl
@[simp] theorem tableWrite_resetCount (s : State) (i : Byte) (v : Word) : (s.tableWrite i v).resetCount = s.resetCount := rfl

/-! ### `bufClear` -/

@[simp] theorem bufClear_phase (s : State) : (s.bufClear).phase = s.phase := rfl
@[simp] theorem bufClear_buildIdx (s : State) : (s.bufClear).buildIdx = s.buildIdx := rfl
@[simp] theorem bufClear_table (s : State) : (s.bufClear).table = s.table := rfl
@[simp] theorem bufClear_crc (s : State) : (s.bufClear).crc = s.crc := rfl
@[simp] theorem bufClear_fbuf (s : State) : (s.bufClear).fbuf = s.fbuf := rfl
@[simp] theorem bufClear_flen (s : State) : (s.bufClear).flen = 0 := rfl
@[simp] theorem bufClear_tlen (s : State) : (s.bufClear).tlen = s.tlen := rfl
@[simp] theorem bufClear_tdig (s : State) : (s.bufClear).tdig = s.tdig := rfl
@[simp] theorem bufClear_hq (s : State) : (s.bufClear).hq = s.hq := rfl
@[simp] theorem bufClear_seqDone (s : State) : (s.bufClear).seqDone = s.seqDone := rfl
@[simp] theorem bufClear_params (s : State) : (s.bufClear).params = s.params := rfl
@[simp] theorem bufClear_report (s : State) : (s.bufClear).report = s.report := rfl
@[simp] theorem bufClear_reportLog (s : State) : (s.bufClear).reportLog = s.reportLog := rfl
@[simp] theorem bufClear_delivered (s : State) : (s.bufClear).delivered = s.delivered := rfl
@[simp] theorem bufClear_upstream (s : State) : (s.bufClear).upstream = s.upstream := rfl
@[simp] theorem bufClear_agenda (s : State) : (s.bufClear).agenda = s.agenda := rfl
@[simp] theorem bufClear_faultMark (s : State) : (s.bufClear).faultMark = s.faultMark := rfl
@[simp] theorem bufClear_resetCount (s : State) : (s.bufClear).resetCount = s.resetCount := rfl

/-! ### `overflow` -/

@[simp] theorem overflow_phase (s : State) : (s.overflow).phase = .seekStart := rfl
@[simp] theorem overflow_buildIdx (s : State) : (s.overflow).buildIdx = s.buildIdx := rfl
@[simp] theorem overflow_table (s : State) : (s.overflow).table = s.table := rfl
@[simp] theorem overflow_crc (s : State) : (s.overflow).crc = s.crc := rfl
@[simp] theorem overflow_fbuf (s : State) : (s.overflow).fbuf = s.fbuf := rfl
@[simp] theorem overflow_flen (s : State) : (s.overflow).flen = s.flen := rfl
@[simp] theorem overflow_tlen (s : State) : (s.overflow).tlen = s.tlen := rfl
@[simp] theorem overflow_tdig (s : State) : (s.overflow).tdig = s.tdig := rfl
@[simp] theorem overflow_hq (s : State) : (s.overflow).hq = s.hq := rfl
@[simp] theorem overflow_seqDone (s : State) : (s.overflow).seqDone = s.seqDone := rfl
@[simp] theorem overflow_params (s : State) : (s.overflow).params = s.params := rfl
@[simp] theorem overflow_report (s : State) : (s.overflow).report = some .frameTooLarge := rfl
@[simp] theorem overflow_reportLog (s : State) : (s.overflow).reportLog = s.reportLog ++ [.frameTooLarge] := rfl
@[simp] theorem overflow_delivered (s : State) : (s.overflow).delivered = s.delivered := rfl
@[simp] theorem overflow_upstream (s : State) : (s.overflow).upstream = s.upstream := rfl
@[simp] theorem overflow_agenda (s : State) : (s.overflow).agenda = s.agenda := rfl
@[simp] theorem overflow_faultMark (s : State) : (s.overflow).faultMark = s.faultMark := rfl
@[simp] theorem overflow_resetCount (s : State) : (s.overflow).resetCount = s.resetCount := rfl

/-! ### `clearBlock` -/

@[simp] theorem clearBlock_phase (s : State) : (s.clearBlock).phase = .init := rfl
@[simp] theorem clearBlock_buildIdx (s : State) : (s.clearBlock).buildIdx = 0 := rfl
@[simp] theorem clearBlock_table (s : State) : (s.clearBlock).table = [] := rfl
@[simp] theorem clearBlock_crc (s : State) : (s.clearBlock).crc = 0 := rfl
@[simp] theorem clearBlock_fbuf (s : State) : (s.clearBlock).fbuf = [] := rfl
@[simp] theorem clearBlock_flen (s : State) : (s.clearBlock).flen = 0 := rfl
@[simp] theorem clearBlock_tlen (s : State) : (s.clearBlock).tlen = 0 := rfl
@[simp] theorem clearBlock_tdig (s : State) : (s.clearBlock).tdig = freeDigits s.resetCount := rfl
@[simp] theorem clearBlock_hq (s : State) : (s.clearBlock).hq = [] := rfl
@[simp] theorem clearBlock_seqDone (s : State) : (s.clearBlock).seqDone = false := rfl
@[simp] theorem clearBlock_params (s : State) : (s.clearBlock).params = s.params := rfl
@[simp] theorem clearBlock_report (s : State) : (s.clearBlock).report = s.report := rfl
@[simp] theorem clearBlock_reportLog (s : State) : (s.clearBlock).reportLog = s.reportLog := rfl
@[simp] theorem clearBlock_delivered (s : State) : (s.clearBlock).delivered = s.delivered := rfl
@[simp] theorem clearBlock_upstream (s : State) : (s.clearBlock).upstream = s.upstream := rfl
@[simp] theorem clearBlock_agenda (s : State) : (s.clearBlock).agenda = s.agenda := rfl
@[simp] theorem clearBlock_faultMark (s : State) : (s.clearBlock).faultMark = s.faultMark := rfl
@[simp] theorem clearBlock_resetCount (s : State) : (s.clearBlock).resetCount = s.resetCount + 1 := rfl

/-! ### `dropTurn` -/

@[simp] theorem dropTurn_phase (s : State) : (s.dropTurn).phase = s.phase := rfl
@[simp] theorem dropTurn_buildIdx (s : State) : (s.dropTurn).buildIdx = s.buildIdx := rfl
@[simp] theorem dropTurn_table (s : State) : (s.dropTurn).table = s.table := rfl
@[simp] theorem dropTurn_crc (s : State) : (s.dropTurn).crc = s.crc := rfl
@[simp] theorem dropTurn_fbuf (s : State) : (s.dropTurn).fbuf = s.fbuf := rfl
@[simp] theorem dropTurn_flen (s : State) : (s.dropTurn).flen = s.flen := rfl
@[simp] theorem dropTurn_tlen (s : State) : (s.dropTurn).tlen = s.tlen := rfl
@[simp] theorem dropTurn_tdig (s : State) : (s.dropTurn).tdig = s.tdig := rfl
@[simp] theorem dropTurn_hq (s : State) : (s.dropTurn).hq = s.hq := rfl
@[simp] theorem dropTurn_seqDone (s : State) : (s.dropTurn).seqDone = s.seqDone := rfl
@[simp] theorem dropTurn_params (s : State) : (s.dropTurn).params = s.params := rfl
@[simp] theorem dropTurn_report (s : State) : (s.dropTurn).report = s.report := rfl
@[simp] theorem dropTurn_reportLog (s : State) : (s.dropTurn).reportLog = s.reportLog := rfl
@[simp] theorem dropTurn_delivered (s : State) : (s.dropTurn).delivered = s.delivered := rfl
@[simp] theorem dropTurn_upstream (s : State) : (s.dropTurn).upstream = s.upstream := rfl
@[simp] theorem dropTurn_agenda (s : State) : (s.dropTurn).agenda = s.agenda.tail := rfl
@[simp] theorem dropTurn_faultMark (s : State) : (s.dropTurn).faultMark = s.faultMark := rfl
@[simp] theorem dropTurn_resetCount (s : State) : (s.dropTurn).resetCount = s.resetCount := rfl

/-! ### `consumeSymbol` -/

@[simp] theorem consumeSymbol_phase (s : State) (p : Port) : (s.consumeSymbol p).phase = s.phase := rfl
@[simp] theorem consumeSymbol_buildIdx (s : State) (p : Port) : (s.consumeSymbol p).buildIdx = s.buildIdx := rfl
@[simp] theorem consumeSymbol_table (s : State) (p : Port) : (s.consumeSymbol p).table = s.table := rfl
@[simp] theorem consumeSymbol_crc (s : State) (p : Port) : (s.consumeSymbol p).crc = s.crc := rfl
@[simp] theorem consumeSymbol_fbuf (s : State) (p : Port) : (s.consumeSymbol p).fbuf = s.fbuf := rfl
@[simp] theorem consumeSymbol_flen (s : State) (p : Port) : (s.consumeSymbol p).flen = s.flen := rfl
@[simp] theorem consumeSymbol_tlen (s : State) (p : Port) : (s.consumeSymbol p).tlen = s.tlen := rfl
@[simp] theorem consumeSymbol_tdig (s : State) (p : Port) : (s.consumeSymbol p).tdig = s.tdig := rfl
@[simp] theorem consumeSymbol_hq (s : State) (p : Port) : (s.consumeSymbol p).hq = s.hq := rfl
@[simp] theorem consumeSymbol_seqDone (s : State) (p : Port) : (s.consumeSymbol p).seqDone = s.seqDone := rfl
@[simp] theorem consumeSymbol_params (s : State) (p : Port) : (s.consumeSymbol p).params = s.params := rfl
@[simp] theorem consumeSymbol_report (s : State) (p : Port) : (s.consumeSymbol p).report = s.report := rfl
@[simp] theorem consumeSymbol_reportLog (s : State) (p : Port) : (s.consumeSymbol p).reportLog = s.reportLog := rfl
@[simp] theorem consumeSymbol_delivered (s : State) (p : Port) : (s.consumeSymbol p).delivered = s.delivered := rfl
@[simp] theorem consumeSymbol_upstream (s : State) (p : Port) : (s.consumeSymbol p).upstream = if p = .input then s.upstream.tail else s.upstream := rfl
@[simp] theorem consumeSymbol_agenda (s : State) (p : Port) : (s.consumeSymbol p).agenda = s.agenda := rfl
@[simp] theorem consumeSymbol_faultMark (s : State) (p : Port) : (s.consumeSymbol p).faultMark = s.faultMark := rfl
@[simp] theorem consumeSymbol_resetCount (s : State) (p : Port) : (s.consumeSymbol p).resetCount = s.resetCount := rfl

end Sys2Proof.Machine
end

