-- ==== Sys2Proof/Laws/Ops.lean ====
section
/-! SUPPORT. One lemma for each shared operation that says all it can do, and the inversion of the shape that the
engine's operations share. Proofs cite these instead of unfolding the operations. -/

namespace Sys2Proof.Machine

/-! ### Results -/

@[simp] theorem finish_ok (t : State) : finish (.ok t) = .next t := rfl

@[simp] theorem finish_error (f : Fault) : finish (.error f) = .fault f := rfl

theorem finish_next {e : Except Fault State} {t : State} : finish e = .next t ↔ e = .ok t := by
  cases e <;> simp [finish]

theorem except_bind_ok {α β : Type} {x : Except Fault α} {g : α → Except Fault β} {r : β} :
    (x >>= g) = .ok r ↔ ∃ a, x = .ok a ∧ g a = .ok r := by
  cases x <;> simp [bind, Except.bind]

@[simp] theorem except_ok_bind {α β : Type} (a : α) (g : α → Except Fault β) :
    ((Except.ok a : Except Fault α) >>= g) = g a := rfl

@[simp] theorem except_error_bind {α β : Type} (f : Fault) (g : α → Except Fault β) :
    ((Except.error f : Except Fault α) >>= g) = .error f := rfl

@[simp] theorem except_pure {α : Type} (a : α) : (pure a : Except Fault α) = .ok a := rfl

/-! ### The start of a step -/

@[simp] theorem isReserved_init : Phase.isReserved .init = false := rfl
@[simp] theorem isReserved_seekStart : Phase.isReserved .seekStart = false := rfl
@[simp] theorem isReserved_seekEnd : Phase.isReserved .seekEnd = false := rfl
@[simp] theorem isReserved_trailer : Phase.isReserved .trailer = false := rfl
@[simp] theorem isReserved_emitWait : Phase.isReserved .emitWait = false := rfl
@[simp] theorem isReserved_done : Phase.isReserved .done = false := rfl

theorem observedFault_of_not_reserved {s : State} (h : s.phase.isReserved = false) :
    s.observedFault = s.faultMark := by
  unfold State.observedFault
  cases s.faultMark <;> simp [h]

/-- Outside the reserved phases a step begins with nothing but a quiet report port. -/
theorem begin_eq {s : State} (h : s.phase.isReserved = false) : s.begin = { s with report := none } := by
  simp [State.begin, observedFault_of_not_reserved h]

theorem observedFault_of_mark {s : State} {f : Fault} (h : s.faultMark = some f) :
    s.observedFault = some f := by simp [State.observedFault, h]

/-! ### Faults -/

theorem halted_of_not_reserved {s : State} (h : s.phase.isReserved = false) : s.halted = s.faultMark.isSome := by
  simp [State.halted, observedFault_of_not_reserved h]

/-- A machine that has found no fault in a legal phase is not halted. -/
theorem not_halted {s : State} (h : s.phase.isReserved = false) (hf : s.faultMark = none) : s.halted = false := by
  simp [halted_of_not_reserved h, hf]

/-- All that settling an answer can do. -/
theorem settle_next {s t : State} {r : Result} :
    s.settle r = .next t ↔ r = .next t ∨ ∃ f, r = .fault f ∧ t = s.recordFault f := by
  cases r <;> simp [State.settle, eq_comm]

@[simp] theorem settle_of_next (s t : State) : s.settle (.next t) = .next t := rfl

@[simp] theorem settle_of_fault (s : State) (f : Fault) : s.settle (.fault f) = .next (s.recordFault f) := rfl

/-! ### The table -/

theorem tableRead_ok {s : State} {i : Byte} {v : Word} :
    s.tableRead i = .ok v ↔ s.tableValid = true ∧ Memory.read s.table i.toNat = some v := by
  unfold State.tableRead
  split <;> rename_i h
  · cases hr : Memory.read s.table i.toNat <;> simp [h]
  · simp [h]

theorem crcUpdate_ok {s : State} {c : Word} {b : Byte} {v : Word} :
    s.crcUpdate c b = .ok v ↔ ∃ e, s.tableRead (crcIndex c b) = .ok e ∧ v = crcFold e c := by
  unfold State.crcUpdate
  cases s.tableRead (crcIndex c b) <;> simp [eq_comm]

/-- With the table built, the machine's update is the pure one of 40_crc_engine.md R83. -/
theorem crcUpdate_of_ready {s : State} (h : s.tableReady) (c : Word) (b : Byte) :
    s.crcUpdate c b = .ok (crcUpdate c b) :=
  crcUpdate_ok.mpr ⟨_, tableRead_ok.mpr ⟨h.1, h.2 _⟩, rfl⟩

/-! ### The frame buffer -/

theorem bufAppend_ok {s t : State} {b : Byte} :
    s.bufAppend b = .ok t ↔
      s.flen < s.params.maxFrame ∧ t = { s with fbuf := Memory.write s.fbuf s.flen b, flen := s.flen + 1 } := by
  unfold State.bufAppend
  split <;> rename_i h <;> simp [h, eq_comm]

theorem bufAppend_of_room {s : State} (b : Byte) (h : s.flen < s.params.maxFrame) :
    s.bufAppend b = .ok { s with fbuf := Memory.write s.fbuf s.flen b, flen := s.flen + 1 } :=
  bufAppend_ok.mpr ⟨h, rfl⟩

theorem bufRead_ok {s : State} {i : Nat} {b : Byte} :
    s.bufRead i = .ok b ↔ i < s.flen ∧ Memory.read s.fbuf i = some b := by
  unfold State.bufRead
  split <;> rename_i h
  · cases hr : Memory.read s.fbuf i <;> simp [h]
  · simp [h]

@[simp] theorem bufPrefix_zero (s : State) : s.bufPrefix 0 = .ok [] := rfl

theorem bufPrefix_succ_ok {s : State} {n : Nat} {q : List Byte} :
    s.bufPrefix (n + 1) = .ok q ↔ ∃ p b, s.bufPrefix n = .ok p ∧ s.bufRead n = .ok b ∧ q = p ++ [b] := by
  simp only [State.bufPrefix, except_bind_ok, except_pure, Except.ok.injEq]
  constructor
  · rintro ⟨p, hp, b, hb, rfl⟩
    exact ⟨p, b, hp, hb, rfl⟩
  · rintro ⟨p, b, hp, hb, rfl⟩
    exact ⟨p, hp, b, hb, rfl⟩

/-- A prefix read has the length asked for. -/
theorem bufPrefix_length {s : State} {n : Nat} {p : List Byte} (h : s.bufPrefix n = .ok p) : p.length = n := by
  induction n generalizing p with
  | zero => simp_all
  | succ n ih =>
    obtain ⟨q, b, hq, -, rfl⟩ := bufPrefix_succ_ok.mp h
    simp [ih hq]

/-- A prefix depends only on the bytes read. -/
theorem bufPrefix_congr {s t : State} {n : Nat}
    (h : ∀ i < n, s.bufRead i = t.bufRead i) : s.bufPrefix n = t.bufPrefix n := by
  induction n with
  | zero => rfl
  | succ n ih =>
    simp only [State.bufPrefix, ih fun i hi => h i (by omega), h n (by omega)]

/-- The payload depends only on the frame buffer and its fill count. -/
theorem payload_congr {s t : State} (hb : t.fbuf = s.fbuf) (hl : t.flen = s.flen) : t.payload = s.payload := by
  unfold State.payload
  rw [hl]
  exact bufPrefix_congr fun i _ => by simp [State.bufRead, hb, hl]

theorem payload_length {s : State} {p : List Byte} (h : s.payload = .ok p) : p.length = s.flen :=
  bufPrefix_length h

/-- One more byte at the end of the frame buffer is one more byte at the end of the payload (20_memory.md R42, R44). -/
theorem payload_append {s t : State} {p : List Byte} {b : Byte} (h : s.payload = .ok p)
    (hb : t.fbuf = Memory.write s.fbuf s.flen b) (hl : t.flen = s.flen + 1) : t.payload = .ok (p ++ [b]) := by
  unfold State.payload
  rw [hl]
  refine bufPrefix_succ_ok.mpr ⟨p, b, ?_, bufRead_ok.mpr ⟨by omega, by simp [hb]⟩, rfl⟩
  rw [← h]
  refine bufPrefix_congr fun i hi => ?_
  have : i < t.flen := by omega
  simp [State.bufRead, hb, memory_read_write, hi, this, show s.flen ≠ i by omega]

/-! ### The hand-off -/

theorem hqPush_ok {s t : State} {p : List Byte} :
    s.hqPush p = .ok t ↔ s.hq.length < s.params.handoffDepth ∧ t = { s with hq := s.hq ++ [p] } := by
  unfold State.hqPush
  split <;> rename_i h <;> simp [h, eq_comm]

theorem hqPop_some {s t : State} :
    s.hqPop = some t ↔ ∃ p rest, s.hq = p :: rest ∧ t = { s with hq := rest, delivered := s.delivered ++ [p] } := by
  unfold State.hqPop
  cases s.hq <;> simp [eq_comm]

theorem hqPop_none {s : State} : s.hqPop = none ↔ s.hq = [] := by
  unfold State.hqPop
  cases s.hq <;> simp

theorem emit_ok {s t : State} :
    s.emit = .ok t ↔
      ∃ p, s.payload = .ok p ∧ s.hq.length < s.params.handoffDepth ∧
        t = { s with hq := s.hq ++ [p], phase := .seekStart } := by
  simp only [State.emit, except_bind_ok, hqPush_ok, except_pure, Except.ok.injEq]
  constructor
  · rintro ⟨p, hp, u, ⟨hl, rfl⟩, rfl⟩
    exact ⟨p, hp, hl, rfl⟩
  · rintro ⟨p, hp, hl, rfl⟩
    exact ⟨p, hp, _, ⟨hl, rfl⟩, rfl⟩

/-! ### Capturing bytes -/

theorem capture_ok {s t : State} {b : Byte} :
    s.capture b = .ok t ↔
      ∃ c, s.crcUpdate s.crc b = .ok c ∧ s.flen < s.params.maxFrame ∧
        t = { s with fbuf := Memory.write s.fbuf s.flen b, flen := s.flen + 1, crc := c } := by
  simp only [State.capture, except_bind_ok, bufAppend_ok, except_pure, Except.ok.injEq]
  constructor
  · rintro ⟨c, hc, u, ⟨hl, rfl⟩, rfl⟩
    exact ⟨c, hc, hl, rfl⟩
  · rintro ⟨c, hc, hl, rfl⟩
    exact ⟨c, hc, _, ⟨hl, rfl⟩, rfl⟩

/-! ### The shape of an operation -/

/-- All that an operation of the engine or the upstream can do. -/
theorem engineStep_next {s t : State} {p : Phase} {effect : State → Except Fault State} :
    s.engineStep p effect = .next t ↔
      s.phase.isReserved = false ∧
        ((s.phase = p ∧ effect s.begin = .ok t) ∨ (s.phase ≠ p ∧ t = s.begin)) := by
  unfold State.engineStep
  split <;> rename_i h1
  · simp [h1]
  · split <;> rename_i h2
    · subst h2
      simp [finish_next, h1]
    · simp [h1, h2, eq_comm]

/-- In its own phase an operation has its effect. -/
theorem engineStep_enabled {s : State} {p : Phase} {effect : State → Except Fault State}
    (hp : s.phase = p) (hr : p.isReserved = false) :
    s.engineStep p effect = finish (effect { s with report := none }) := by
  subst hp
  simp [State.engineStep, hr, begin_eq hr]

/-- No operation of the engine or the upstream refuses. -/
theorem engineStep_not_refused {s : State} {p : Phase} {effect : State → Except Fault State} {r : Refusal} :
    s.engineStep p effect ≠ .refused r := by
  unfold State.engineStep
  split
  · simp
  · split
    · cases effect s.begin <;> simp [finish]
    · simp

end Sys2Proof.Machine
end

