-- ==== Sys2Proof/Laws/Exec.lean ====
section
/-! SUPPORT. The inversion of every operation and of a step: if it answers a next state, then this is what happened. -/

namespace Sys2Proof.Machine

/-- The state after a turn in which an operation outside its phase is asked for. -/
theorem engineStep_cases {s t : State} {p : Phase} {effect : State → Except Fault State} :
    s.engineStep p effect = .next t ↔
      s.phase.isReserved = false ∧
        ((s.phase = p ∧ effect { s with report := none } = .ok t) ∨
          (s.phase ≠ p ∧ t = { s with report := none })) := by
  rw [engineStep_next]
  constructor
  · rintro ⟨hr, h⟩
    rw [begin_eq hr] at h
    exact ⟨hr, h⟩
  · rintro ⟨hr, h⟩
    rw [begin_eq hr]
    exact ⟨hr, h⟩

theorem except_ok_eq {α : Type} {a b : α} : (Except.ok a : Except Fault α) = .ok b ↔ b = a := by
  rw [Except.ok.injEq]
  exact eq_comm

/-- A choice between two effects, read as a statement. -/
theorem ite_ok {c : Prop} [Decidable c] {x y : Except Fault State} {t : State} :
    (if c then x else y) = .ok t ↔ (c ∧ x = .ok t) ∨ (¬ c ∧ y = .ok t) := by
  split <;> simp_all

theorem execInitBuild_next {s t : State} :
    execInitBuild s = .next t ↔
      s.phase.isReserved = false ∧
        ((s.phase = .init ∧ t = buildEntry { s with report := none }) ∨
          (s.phase ≠ .init ∧ t = { s with report := none })) := by
  simp only [execInitBuild, engineStep_cases, except_ok_eq]

theorem execSsStart_next {s t : State} :
    execSsStart s = .next t ↔
      s.phase.isReserved = false ∧
        ((s.phase = .seekStart ∧ 0 < s.params.maxFrame ∧
            ∃ c, s.crcUpdate Config.crcInit Config.startMark = .ok c ∧
              t = { s with
                    report := none, fbuf := Memory.write s.fbuf 0 Config.startMark, flen := 1, crc := c, tlen := 0
                    phase := .seekEnd }) ∨
          (s.phase ≠ .seekStart ∧ t = { s with report := none })) := by
  simp only [execSsStart, engineStep_cases, except_bind_ok, bufAppend_ok, except_pure, Except.ok.injEq]
  refine and_congr_right fun _ => or_congr_left (and_congr_right fun _ => ?_)
  constructor
  · rintro ⟨u, ⟨hl, rfl⟩, c, hc, rfl⟩
    exact ⟨hl, c, hc, rfl⟩
  · rintro ⟨hl, c, hc, rfl⟩
    exact ⟨_, ⟨hl, rfl⟩, c, hc, rfl⟩

theorem execSsEos_next {s t : State} :
    execSsEos s = .next t ↔
      s.phase.isReserved = false ∧
        ((s.phase = .seekStart ∧ t = { s with report := none, phase := .done, seqDone := true }) ∨
          (s.phase ≠ .seekStart ∧ t = { s with report := none })) := by
  simp only [execSsEos, engineStep_cases, except_ok_eq, State.endStream]

theorem execSsDiscard_next {s t : State} (b : Byte) :
    execSsDiscard b s = .next t ↔ s.phase.isReserved = false ∧ t = { s with report := none } := by
  simp only [execSsDiscard, engineStep_cases, except_ok_eq]
  tauto

/-- The two arms that SE_ACCUM and SE_END share (41_frame_extractor.md R105, R106, R108). -/
theorem overflow_eq (s : State) :
    ({ s with report := none } : State).overflow =
      { s with
        phase := .seekStart, report := some .frameTooLarge
        reportLog := s.reportLog ++ [.frameTooLarge] } := rfl

theorem execSeAccum_next {s t : State} {b : Byte} :
    execSeAccum b s = .next t ↔
      s.phase.isReserved = false ∧
        ((s.phase = .seekEnd ∧ s.flen = s.params.maxFrame ∧ t = ({ s with report := none } : State).overflow) ∨
          (s.phase = .seekEnd ∧ s.flen < s.params.maxFrame ∧
            ∃ c, s.crcUpdate s.crc b = .ok c ∧
              t = { s with
                    report := none, fbuf := Memory.write s.fbuf s.flen b, flen := s.flen + 1, crc := c }) ∨
          (s.phase ≠ .seekEnd ∧ t = { s with report := none })) := by
  simp only [execSeAccum, engineStep_cases, ite_ok, except_ok_eq, capture_ok]
  refine and_congr_right fun _ => ?_
  constructor
  · rintro (⟨hp, (⟨hm, ht⟩ | ⟨-, c, hc, hl, ht⟩)⟩ | h)
    · exact .inl ⟨hp, hm, ht⟩
    · exact .inr (.inl ⟨hp, hl, c, hc, ht⟩)
    · exact .inr (.inr h)
  · rintro (⟨hp, hm, ht⟩ | ⟨hp, hl, c, hc, ht⟩ | h)
    · exact .inl ⟨hp, .inl ⟨hm, ht⟩⟩
    · exact .inl ⟨hp, .inr ⟨Nat.ne_of_lt hl, c, hc, hl, ht⟩⟩
    · exact .inr h

theorem execSeEnd_next {s t : State} :
    execSeEnd s = .next t ↔
      s.phase.isReserved = false ∧
        ((s.phase = .seekEnd ∧ s.flen = s.params.maxFrame ∧ t = ({ s with report := none } : State).overflow) ∨
          (s.phase = .seekEnd ∧ s.flen < s.params.maxFrame ∧
            ∃ c, s.crcUpdate s.crc Config.endMark = .ok c ∧
              t = { s with
                    report := none, fbuf := Memory.write s.fbuf s.flen Config.endMark, flen := s.flen + 1, crc := c
                    tlen := 0, phase := .trailer }) ∨
          (s.phase ≠ .seekEnd ∧ t = { s with report := none })) := by
  simp only [execSeEnd, engineStep_cases, ite_ok, except_ok_eq, except_bind_ok, except_pure, capture_ok]
  refine and_congr_right fun _ => ?_
  constructor
  · rintro (⟨hp, (⟨hm, ht⟩ | ⟨-, u, ⟨c, hc, hl, rfl⟩, ht⟩)⟩ | h)
    · exact .inl ⟨hp, hm, ht⟩
    · exact .inr (.inl ⟨hp, hl, c, hc, ht⟩)
    · exact .inr (.inr h)
  · rintro (⟨hp, hm, ht⟩ | ⟨hp, hl, c, hc, ht⟩ | h)
    · exact .inl ⟨hp, .inl ⟨hm, ht⟩⟩
    · exact .inl ⟨hp, .inr ⟨Nat.ne_of_lt hl, _, ⟨c, hc, hl, rfl⟩, ht⟩⟩
    · exact .inr h

theorem execSeEos_next {s t : State} :
    execSeEos s = .next t ↔
      s.phase.isReserved = false ∧
        ((s.phase = .seekEnd ∧
            t = { s with
                  phase := .done, seqDone := true, report := some .streamTerminatorMissing
                  reportLog := s.reportLog ++ [.streamTerminatorMissing] }) ∨
          (s.phase ≠ .seekEnd ∧ t = { s with report := none })) := by
  simp only [execSeEos, engineStep_cases, except_ok_eq, State.endStream, State.recover, State.raise]

theorem execTrEol_next {s t : State} :
    execTrEol s = .next t ↔
      s.phase.isReserved = false ∧
        ((s.phase = .trailer ∧ s.tlen ≠ 5 ∧
            t = { s with
                  phase := .seekStart, report := some .trailerLengthMismatch
                  reportLog := s.reportLog ++ [.trailerLengthMismatch] }) ∨
          (s.phase = .trailer ∧ s.tlen = 5 ∧ digitsMatch s.tdig s.crc = false ∧
            t = { s with
                  phase := .seekStart, report := some .checksumMismatch
                  reportLog := s.reportLog ++ [.checksumMismatch] }) ∨
          (s.phase = .trailer ∧ s.tlen = 5 ∧ digitsMatch s.tdig s.crc = true ∧
            s.hq.length < s.params.handoffDepth ∧
            ∃ p, s.payload = .ok p ∧ t = { s with report := none, hq := s.hq ++ [p], phase := .seekStart }) ∨
          (s.phase = .trailer ∧ s.tlen = 5 ∧ digitsMatch s.tdig s.crc = true ∧
            ¬ s.hq.length < s.params.handoffDepth ∧ t = { s with report := none, phase := .emitWait }) ∨
          (s.phase ≠ .trailer ∧ t = { s with report := none })) := by
  have hpay : ({ s with report := none } : State).payload = s.payload := payload_congr rfl rfl
  simp only [execTrEol, engineStep_cases, ite_ok, except_ok_eq, emit_ok, hpay, State.recover, State.raise,
    Bool.eq_false_iff, ne_eq, not_not]
  refine and_congr_right fun _ => ?_
  constructor
  · rintro (⟨hp, (⟨hl, ht⟩ | ⟨hl, (⟨hd, ht⟩ | ⟨hd, (⟨hq, p, hpp, -, ht⟩ | ⟨hq, ht⟩)⟩)⟩)⟩ | h)
    · exact .inl ⟨hp, hl, ht⟩
    · exact .inr (.inl ⟨hp, hl, hd, ht⟩)
    · exact .inr (.inr (.inl ⟨hp, hl, hd, hq, p, hpp, ht⟩))
    · exact .inr (.inr (.inr (.inl ⟨hp, hl, hd, hq, ht⟩)))
    · exact .inr (.inr (.inr (.inr h)))
  · rintro (⟨hp, hl, ht⟩ | ⟨hp, hl, hd, ht⟩ | ⟨hp, hl, hd, hq, p, hpp, ht⟩ | ⟨hp, hl, hd, hq, ht⟩ | h)
    · exact .inl ⟨hp, .inl ⟨hl, ht⟩⟩
    · exact .inl ⟨hp, .inr ⟨hl, .inl ⟨hd, ht⟩⟩⟩
    · exact .inl ⟨hp, .inr ⟨hl, .inr ⟨hd, .inl ⟨hq, p, hpp, hq, ht⟩⟩⟩⟩
    · exact .inl ⟨hp, .inr ⟨hl, .inr ⟨hd, .inr ⟨hq, ht⟩⟩⟩⟩
    · exact .inr h

theorem execTrEos_next {s t : State} :
    execTrEos s = .next t ↔
      s.phase.isReserved = false ∧
        ((s.phase = .trailer ∧
            t = { s with
                  phase := .done, seqDone := true, report := some .trailerLengthMismatch
                  reportLog := s.reportLog ++ [.trailerLengthMismatch] }) ∨
          (s.phase ≠ .trailer ∧ t = { s with report := none })) := by
  simp only [execTrEos, engineStep_cases, except_ok_eq, State.endStream, State.recover, State.raise]

theorem execTrByte_next {s t : State} {b : Byte} :
    execTrByte b s = .next t ↔
      s.phase.isReserved = false ∧
        ((s.phase = .trailer ∧
            t = { s with report := none, tdig := tdigNext s.tdig s.tlen b, tlen := tlenNext s.tlen }) ∨
          (s.phase ≠ .trailer ∧ t = { s with report := none })) := by
  simp only [execTrByte, engineStep_cases, except_ok_eq]

theorem execEmitPush_next {s t : State} :
    execEmitPush s = .next t ↔
      s.phase.isReserved = false ∧
        ((s.phase = .emitWait ∧ s.hq.length < s.params.handoffDepth ∧
            ∃ p, s.payload = .ok p ∧ t = { s with report := none, hq := s.hq ++ [p], phase := .seekStart }) ∨
          ((s.phase ≠ .emitWait ∨ ¬ s.hq.length < s.params.handoffDepth) ∧ t = { s with report := none })) := by
  have hpay : ({ s with report := none } : State).payload = s.payload := payload_congr rfl rfl
  simp only [execEmitPush, engineStep_cases, ite_ok, except_ok_eq, emit_ok, hpay]
  refine and_congr_right fun _ => ?_
  constructor
  · rintro (⟨hp, (⟨hq, p, hpp, -, ht⟩ | ⟨hq, ht⟩)⟩ | ⟨hp, ht⟩)
    · exact .inl ⟨hp, hq, p, hpp, ht⟩
    · exact .inr ⟨.inr hq, ht⟩
    · exact .inr ⟨.inl hp, ht⟩
  · rintro (⟨hp, hq, p, hpp, ht⟩ | ⟨h, ht⟩)
    · exact .inl ⟨hp, .inl ⟨hq, p, hpp, hq, ht⟩⟩
    · by_cases hp : s.phase = .emitWait
      · exact .inl ⟨hp, .inr ⟨fun hq => h.elim (fun g => g hp) (fun g => g hq), ht⟩⟩
      · exact .inr ⟨hp, ht⟩

theorem execPop_next {s t : State} :
    execPop s = .next t ↔
      (∃ p rest, s.hq = p :: rest ∧
        t = { s.begin with hq := rest, delivered := s.delivered ++ [p] }) ∨ (s.hq = [] ∧ t = s.begin) := by
  unfold execPop State.hqPop
  rw [begin_hq]
  cases s.hq with
  | nil => simp [eq_comm]
  | cons p rest => simp [eq_comm]

theorem execReset_next {s t : State} : execReset s = .next t ↔ t = s.begin.clearBlock := by
  simp [execReset, eq_comm]

/-- POP and RESET answer a next state whatever the state. -/
theorem execPop_total (s : State) : ∃ t, execPop s = .next t := by
  unfold execPop
  cases s.begin.hqPop <;> exact ⟨_, rfl⟩

/-- No operation is refused. -/
theorem exec_not_refused (i : Instr) (s : State) (r : Refusal) : exec i s ≠ .refused r := by
  cases i with
  | reset => simp [exec, execReset]
  | pop =>
    obtain ⟨t, h⟩ := execPop_total s
    simp [exec, h]
  | initBuild => unfold exec execInitBuild; exact engineStep_not_refused
  | emitPush => unfold exec execEmitPush; exact engineStep_not_refused
  | ssStart => unfold exec execSsStart; exact engineStep_not_refused
  | ssEos => unfold exec execSsEos; exact engineStep_not_refused
  | ssDiscard b => unfold exec execSsDiscard; exact engineStep_not_refused
  | seEnd => unfold exec execSeEnd; exact engineStep_not_refused
  | seEos => unfold exec execSeEos; exact engineStep_not_refused
  | seAccum b => unfold exec execSeAccum; exact engineStep_not_refused
  | trEol => unfold exec execTrEol; exact engineStep_not_refused
  | trEos => unfold exec execTrEos; exact engineStep_not_refused
  | trByte b => unfold exec execTrByte; exact engineStep_not_refused

/-! ### A step -/

/-- All that a step can do: run the operation its turn selects, record the fault that operation met, or pass. -/
theorem step_next {s t : State} :
    step s = .next t ↔
      (∃ i, s.dropTurn.fetch s.nextPort = some i ∧
        (exec i (s.dropTurn.consumeSymbol s.nextPort) = .next t ∨
          ∃ f, exec i (s.dropTurn.consumeSymbol s.nextPort) = .fault f ∧ t = s.dropTurn.recordFault f)) ∨
      (s.dropTurn.fetch s.nextPort = none ∧ t = s.dropTurn.begin) := by
  unfold step
  cases h : s.dropTurn.fetch s.nextPort with
  | none => simp [eq_comm]
  | some i => simp [settle_next]

/-- A selected operation is the one its word decodes to (30_encoding.md R64). -/
theorem fetch_some {s : State} {p : Port} {i : Instr} (h : s.fetch p = some i) :
    decodeWord (s.opWord p) = .ok i := by
  unfold State.fetch at h
  split at h
  · cases h
  · split at h <;> simp_all

/-- A void turn selects nothing. -/
theorem fetch_of_void {s : State} {p : Port} (h : s.turnIsVoid p = true) : s.fetch p = none := by
  simp [State.fetch, h]

/-- Any other turn selects what its word decodes to. -/
theorem fetch_of_decode {s : State} {p : Port} {i : Instr} (hv : s.turnIsVoid p = false)
    (h : decodeWord (s.opWord p) = .ok i) : s.fetch p = some i := by
  simp [State.fetch, hv, h]

/-- A step answers a next state whatever the state: no operation is refused, and a fault is recorded. -/
theorem step_total (s : State) : ∃ t, step s = .next t := by
  unfold step
  cases h : s.dropTurn.fetch s.nextPort with
  | none => exact ⟨_, rfl⟩
  | some i =>
    cases he : exec i (s.dropTurn.consumeSymbol s.nextPort) with
    | next t => exact ⟨t, by simp [he]⟩
    | fault f => exact ⟨_, by simp [he]; rfl⟩
    | refused r => exact absurd he (exec_not_refused _ _ _)

end Sys2Proof.Machine
end

