-- ==== Sys2Proof/Laws/Effect.lean ====
section
/-! SUPPORT. All that an operation and a step can do, as one case analysis each. -/

namespace Sys2Proof.Machine

/-- How an operation's next state comes of the state before: one constructor per arm of the rules of
41_frame_extractor.md, 42_handoff_control.md, 40_crc_engine.md R82 and 70_reset_and_hazards.md R170. -/
inductive OpEffect : Instr → State → State → Prop where
  /-- No operation happens: it is disabled, or the byte is noise. -/
  | idle {i : Instr} {s : State} (hr : s.phase.isReserved = false) : OpEffect i s { s with report := none }
  | reset {s : State} : OpEffect .reset s s.begin.clearBlock
  | pop {s : State} {p : List Byte} {rest : List (List Byte)} (hq : s.hq = p :: rest) :
      OpEffect .pop s { s.begin with hq := rest, delivered := s.delivered ++ [p] }
  | popEmpty {s : State} (hq : s.hq = []) : OpEffect .pop s s.begin
  | build {s : State} (hp : s.phase = .init) : OpEffect .initBuild s (buildEntry { s with report := none })
  | emit {s : State} {p : List Byte} (hp : s.phase = .emitWait) (hl : s.hq.length < s.params.handoffDepth)
      (hpay : s.payload = .ok p) :
      OpEffect .emitPush s { s with report := none, hq := s.hq ++ [p], phase := .seekStart }
  | start {s : State} {c : Word} (hp : s.phase = .seekStart) (hm : 0 < s.params.maxFrame)
      (hc : s.crcUpdate Config.crcInit Config.startMark = .ok c) :
      OpEffect .ssStart s
        { s with
          report := none, fbuf := Memory.write s.fbuf 0 Config.startMark, flen := 1, crc := c, tlen := 0
          phase := .seekEnd }
  | startEos {s : State} (hp : s.phase = .seekStart) :
      OpEffect .ssEos s { s with report := none, phase := .done, seqDone := true }
  | accum {s : State} {b : Byte} {c : Word} (hp : s.phase = .seekEnd) (hm : s.flen < s.params.maxFrame)
      (hc : s.crcUpdate s.crc b = .ok c) :
      OpEffect (.seAccum b) s
        { s with report := none, fbuf := Memory.write s.fbuf s.flen b, flen := s.flen + 1, crc := c }
  | accumOverflow {s : State} {b : Byte} (hp : s.phase = .seekEnd) (hm : s.flen = s.params.maxFrame) :
      OpEffect (.seAccum b) s ({ s with report := none } : State).overflow
  | terminate {s : State} {c : Word} (hp : s.phase = .seekEnd) (hm : s.flen < s.params.maxFrame)
      (hc : s.crcUpdate s.crc Config.endMark = .ok c) :
      OpEffect .seEnd s
        { s with
          report := none, fbuf := Memory.write s.fbuf s.flen Config.endMark, flen := s.flen + 1, crc := c
          tlen := 0, phase := .trailer }
  | terminateOverflow {s : State} (hp : s.phase = .seekEnd) (hm : s.flen = s.params.maxFrame) :
      OpEffect .seEnd s ({ s with report := none } : State).overflow
  | endEos {s : State} (hp : s.phase = .seekEnd) :
      OpEffect .seEos s
        { s with
          phase := .done, seqDone := true, report := some .streamTerminatorMissing
          reportLog := s.reportLog ++ [.streamTerminatorMissing] }
  | wrongLength {s : State} (hp : s.phase = .trailer) (hl : s.tlen ≠ 5) :
      OpEffect .trEol s
        { s with
          phase := .seekStart, report := some .trailerLengthMismatch
          reportLog := s.reportLog ++ [.trailerLengthMismatch] }
  | wrongDigits {s : State} (hp : s.phase = .trailer) (hl : s.tlen = 5) (hd : digitsMatch s.tdig s.crc = false) :
      OpEffect .trEol s
        { s with
          phase := .seekStart, report := some .checksumMismatch
          reportLog := s.reportLog ++ [.checksumMismatch] }
  | verified {s : State} {p : List Byte} (hp : s.phase = .trailer) (hl : s.tlen = 5)
      (hd : digitsMatch s.tdig s.crc = true) (hq : s.hq.length < s.params.handoffDepth) (hpay : s.payload = .ok p) :
      OpEffect .trEol s { s with report := none, hq := s.hq ++ [p], phase := .seekStart }
  | verifiedFull {s : State} (hp : s.phase = .trailer) (hl : s.tlen = 5)
      (hd : digitsMatch s.tdig s.crc = true) (hq : ¬ s.hq.length < s.params.handoffDepth) :
      OpEffect .trEol s { s with report := none, phase := .emitWait }
  | trailerEos {s : State} (hp : s.phase = .trailer) :
      OpEffect .trEos s
        { s with
          phase := .done, seqDone := true, report := some .trailerLengthMismatch
          reportLog := s.reportLog ++ [.trailerLengthMismatch] }
  | trailerByte {s : State} {b : Byte} (hp : s.phase = .trailer) :
      OpEffect (.trByte b) s { s with report := none, tdig := tdigNext s.tdig s.tlen b, tlen := tlenNext s.tlen }

/-- An operation that answers a next state did one of these. -/
theorem exec_effect {i : Instr} {s t : State} (h : exec i s = .next t) : OpEffect i s t := by
  cases i with
  | reset =>
    cases execReset_next.mp h
    exact .reset
  | pop =>
    obtain (⟨p, rest, hq, rfl⟩ | ⟨hq, rfl⟩) := execPop_next.mp h
    · exact .pop hq
    · exact .popEmpty hq
  | initBuild =>
    obtain ⟨hr, (⟨hp, rfl⟩ | ⟨-, rfl⟩)⟩ := execInitBuild_next.mp h
    · exact .build hp
    · exact .idle hr
  | emitPush =>
    obtain ⟨hr, (⟨hp, hl, p, hpay, rfl⟩ | ⟨-, rfl⟩)⟩ := execEmitPush_next.mp h
    · exact .emit hp hl hpay
    · exact .idle hr
  | ssStart =>
    obtain ⟨hr, (⟨hp, hm, c, hc, rfl⟩ | ⟨-, rfl⟩)⟩ := execSsStart_next.mp h
    · exact .start hp hm hc
    · exact .idle hr
  | ssEos =>
    obtain ⟨hr, (⟨hp, rfl⟩ | ⟨-, rfl⟩)⟩ := execSsEos_next.mp h
    · exact .startEos hp
    · exact .idle hr
  | ssDiscard b =>
    obtain ⟨hr, rfl⟩ := (execSsDiscard_next b).mp h
    exact .idle hr
  | seEnd =>
    obtain ⟨hr, (⟨hp, hm, rfl⟩ | ⟨hp, hm, c, hc, rfl⟩ | ⟨-, rfl⟩)⟩ := execSeEnd_next.mp h
    · exact .terminateOverflow hp hm
    · exact .terminate hp hm hc
    · exact .idle hr
  | seEos =>
    obtain ⟨hr, (⟨hp, rfl⟩ | ⟨-, rfl⟩)⟩ := execSeEos_next.mp h
    · exact .endEos hp
    · exact .idle hr
  | seAccum b =>
    obtain ⟨hr, (⟨hp, hm, rfl⟩ | ⟨hp, hm, c, hc, rfl⟩ | ⟨-, rfl⟩)⟩ := execSeAccum_next.mp h
    · exact .accumOverflow hp hm
    · exact .accum hp hm hc
    · exact .idle hr
  | trEol =>
    obtain ⟨hr, h⟩ := execTrEol_next.mp h
    obtain (⟨hp, hl, rfl⟩ | ⟨hp, hl, hd, rfl⟩ | ⟨hp, hl, hd, hq, p, hpay, rfl⟩ | ⟨hp, hl, hd, hq, rfl⟩ | ⟨-, rfl⟩) := h
    · exact .wrongLength hp hl
    · exact .wrongDigits hp hl hd
    · exact .verified hp hl hd hq hpay
    · exact .verifiedFull hp hl hd hq
    · exact .idle hr
  | trEos =>
    obtain ⟨hr, (⟨hp, rfl⟩ | ⟨-, rfl⟩)⟩ := execTrEos_next.mp h
    · exact .trailerEos hp
    · exact .idle hr
  | trByte b =>
    obtain ⟨hr, (⟨hp, rfl⟩ | ⟨-, rfl⟩)⟩ := execTrByte_next.mp h
    · exact .trailerByte hp
    · exact .idle hr

/-- All that a step can do: the operation its word decodes to ran, or met a fault that is recorded, or the turn passed. -/
theorem step_effect {s t : State} (h : step s = .next t) :
    t = s.dropTurn.begin ∨
      (∃ i, decodeWord (s.opWord s.nextPort) = .ok i ∧ OpEffect i (s.dropTurn.consumeSymbol s.nextPort) t) ∨
      ∃ i f, decodeWord (s.opWord s.nextPort) = .ok i ∧
        exec i (s.dropTurn.consumeSymbol s.nextPort) = .fault f ∧ t = s.dropTurn.recordFault f := by
  obtain (⟨i, hf, (he | ⟨f, he, rfl⟩)⟩ | ⟨-, rfl⟩) := step_next.mp h
  · exact .inr (.inl ⟨i, fetch_some hf, exec_effect he⟩)
  · exact .inr (.inr ⟨i, f, fetch_some hf, he, rfl⟩)
  · exact .inl rfl

end Sys2Proof.Machine
end

