-- ==== Sys2Proof/Laws/PerInstr.lean ====
section
/-! SUPPORT. The statement family EncodeRow, one lemma per operation: an operation's word belongs to the row that the
opcode map gives that operation (30_encoding.md R65). -/

namespace Sys2Proof.Laws.EncodeRow

/-- The order number of an operation's row in the opcode map, counted from 0. -/
def rowIndex : Instr → Nat
  | .reset => 0
  | .pop => 1
  | .initBuild => 2
  | .emitPush => 3
  | .ssStart => 4
  | .ssEos => 5
  | .ssDiscard _ => 6
  | .seEnd => 7
  | .seEos => 8
  | .seAccum _ => 9
  | .trEol => 10
  | .trEos => 11
  | .trByte _ => 12

/-- The operation's own row takes its word, and makes the operation of the word's data field. -/
def Statement (i : Instr) : Prop :=
  ∃ r, opcodeMap[rowIndex i]? = some r ∧ encode i &&& r.mask = r.pattern ∧ r.make (opData (encode i)) = i

theorem withData_ssDiscard : ∀ b : Byte, withData 0x1200 b &&& 0x3F00 = 0x1200 ∧ opData (withData 0x1200 b) = b := by
  decide +kernel

theorem withData_seAccum : ∀ b : Byte, withData 0x1400 b &&& 0x3F00 = 0x1400 ∧ opData (withData 0x1400 b) = b := by
  decide +kernel

theorem withData_trByte : ∀ b : Byte, withData 0x1600 b &&& 0x3F00 = 0x1600 ∧ opData (withData 0x1600 b) = b := by
  decide +kernel

theorem reset : Statement .reset := ⟨_, rfl, rfl, rfl⟩

theorem pop : Statement .pop := ⟨_, rfl, rfl, rfl⟩

theorem initBuild : Statement .initBuild := ⟨_, rfl, rfl, rfl⟩

theorem emitPush : Statement .emitPush := ⟨_, rfl, rfl, rfl⟩

theorem ssStart : Statement .ssStart := ⟨_, rfl, rfl, rfl⟩

theorem ssEos : Statement .ssEos := ⟨_, rfl, rfl, rfl⟩

theorem ssDiscard (b : Byte) : Statement (.ssDiscard b) :=
  ⟨_, rfl, (withData_ssDiscard b).1, congrArg Instr.ssDiscard (withData_ssDiscard b).2⟩

theorem seEnd : Statement .seEnd := ⟨_, rfl, rfl, rfl⟩

theorem seEos : Statement .seEos := ⟨_, rfl, rfl, rfl⟩

theorem seAccum (b : Byte) : Statement (.seAccum b) :=
  ⟨_, rfl, (withData_seAccum b).1, congrArg Instr.seAccum (withData_seAccum b).2⟩

theorem trEol : Statement .trEol := ⟨_, rfl, rfl, rfl⟩

theorem trEos : Statement .trEos := ⟨_, rfl, rfl, rfl⟩

theorem trByte (b : Byte) : Statement (.trByte b) :=
  ⟨_, rfl, (withData_trByte b).1, congrArg Instr.trByte (withData_trByte b).2⟩

end Sys2Proof.Laws.EncodeRow
end

