-- ==== Sys2Proof/Laws/Stream.lean ====
section
/-! SUPPORT. What the run of a stream program can do, turn by turn (30_encoding.md R70). -/

namespace Sys2Proof.Machine

@[simp] theorem andThen_of_next (t : State) (f : State → Result) : andThen (.next t) f = f t := rfl

/-- Both parts of a sequence answer a next state, or the sequence does not. -/
theorem andThen_next {r : Result} {f : State → Result} {t : State} :
    andThen r f = .next t ↔ ∃ u, r = .next u ∧ f u = .next t := by
  cases r <;> simp [andThen]

/-- A turn taken ahead of the agenda is a step of the state that lists it first, and always answers a next state. -/
theorem takeTurn_total (s : State) (p : Port) : ∃ t, s.takeTurn p = .next t := step_total _

/-- The eager order stops where the block has no step of its own. -/
theorem eager_of_idle {s : State} (n : Nat) (hi : s.enabled .internal = false) (hu : s.enabled .input = false) :
    s.eager n = .next s := by
  cases n <;> simp [State.eager, hi, hu]

theorem eager_of_internal {s : State} (n : Nat) (hi : s.enabled .internal = true) :
    s.eager (n + 1) = andThen (s.takeTurn .internal) (State.eager n) := by simp [State.eager, hi]

theorem eager_of_input {s : State} (n : Nat) (hi : s.enabled .internal = false) (hu : s.enabled .input = true) :
    s.eager (n + 1) = andThen (s.takeTurn .input) (State.eager n) := by simp [State.eager, hi, hu]

/-- The eager order always answers a next state. -/
theorem eager_total (n : Nat) (s : State) : ∃ t, s.eager n = .next t := by
  induction n generalizing s with
  | zero => exact ⟨s, rfl⟩
  | succ n ih =>
    cases hi : s.enabled .internal with
    | true =>
      obtain ⟨u, hu⟩ := takeTurn_total s .internal
      simpa [eager_of_internal n hi, hu] using ih u
    | false =>
      cases hn : s.enabled .input with
      | true =>
        obtain ⟨u, hu⟩ := takeTurn_total s .input
        simpa [eager_of_input n hi hn, hu] using ih u
      | false => exact ⟨s, eager_of_idle _ hi hn⟩

end Sys2Proof.Machine
end

