-- ==== Sys2Proof/Tests/Slice0.lean ====
section
/-! SUPPORT. Tests on fixed values, whose expected results are those of 95_test_vectors.md and of the spec's tables, and
for every statement with hypotheses a state that meets them. -/

namespace Sys2Proof.Tests

open Sys2Proof Sys2Proof.Machine

/-! ### States to test on -/

/-- The next state of an answer. -/
def nextOf : Result → Option State
  | .next t => some t
  | .fault _ => none
  | .refused _ => none

/-- The fault of an answer. -/
def faultOf : Result → Option Fault
  | .next _ => none
  | .fault f => some f
  | .refused _ => none

theorem next_of_isSome {r : Result} (h : (nextOf r).isSome = true) : ∃ t, r = .next t := by
  cases r <;> simp_all [nextOf]

theorem next_of_map {α : Type} {r : Result} {f : State → α} {v : α} (h : (nextOf r).map f = some v) :
    ∃ t, r = .next t ∧ f t = v := by
  cases r <;> simp_all [nextOf]

/-- SEEK_START with the full table, reached by RESET and INIT (95_test_vectors.md, L2). -/
def seeking : State := { State.reset with phase := .seekStart, buildIdx := 256, table := builtTable }

/-- SEEK_END after the byte `/`. -/
def inFrame : State :=
  { seeking with phase := .seekEnd, fbuf := [(0, 0x2F)], flen := 1, crc := 0xDC41 }

/-- SEEK_END after "/x" with MAX_FRAME = 2: the buffer is full (L2-X11). -/
def fullFrame : State :=
  { inFrame with
    params := { maxFrame := 2, handoffDepth := 1 }, fbuf := [(0, 0x2F), (1, 0x78)], flen := 2, crc := 0x121C }

/-- TRAILER after "/!" and `n` trailer bytes, of which the first four are `d`. -/
def inTrailer (d : Vector Byte 4) (n : BitVec 3) : State :=
  { seeking with
    phase := .trailer, fbuf := [(0, 0x2F), (1, 0x21)], flen := 2, crc := 0x28DC, tdig := d, tlen := n }

/-- The digits "28DC", the checksum of "/!". -/
def goodDigits : Vector Byte 4 := #v[0x32, 0x38, 0x44, 0x43]

/-- TRAILER after "/!28DC\r". -/
def verified : State := inTrailer goodDigits 5

/-- A hand-off of depth 1 that holds "/!". -/
def withFull (s : State) : State :=
  { s with params := { maxFrame := 4, handoffDepth := 1 }, hq := [[0x2F, 0x21]] }

/-- EMIT_WAIT with "/!" held back (L2-H2). -/
def heldBack : State := { withFull verified with phase := .emitWait }

/-- DONE with nothing to deliver. -/
def ended : State := { seeking with phase := .done, seqDone := true }

/-- A reserved phase. -/
def reserved : State := { seeking with phase := .reserved6 }

/-- One turn in the eager order, in which the upstream offers the symbol `x`. -/
def offer (s : State) (x : Symbol) : Option State := nextOf (step { s with upstream := [x] })

/-- What the tables of 95_test_vectors.md show of a state, and the report raised. -/
structure View where
  phase : Phase
  flen : Nat
  crc : Word
  tlen : BitVec 3
  queued : Nat
  seqDone : Bool
  outEnd : Bool
  report : Option Report
deriving DecidableEq, Repr

def view (s : Option State) : Option View :=
  s.map fun s => ⟨s.phase, s.flen, s.crc, s.tlen, s.hq.length, s.seqDone, s.outEnd, s.report⟩

/-! ### Well-formedness -/

theorem test_wf_ssDiscard_refuses_start : WellFormed (.ssDiscard 0x2F) = false := by decide
theorem test_wf_seAccum_refuses_end : WellFormed (.seAccum 0x21) = false := by decide
theorem test_wf_trByte_refuses_eol : WellFormed (.trByte 0x0A) = false := by decide
theorem test_wf_neighbours : WellFormed (.ssDiscard 0x21) ∧ WellFormed (.seAccum 0x2F) ∧ WellFormed (.trByte 0x0D) := by
  decide
theorem test_wf_params_refuses_small : Params.wf ⟨1, 1⟩ = false ∧ Params.wf ⟨2, 0⟩ = false ∧ Params.wf ⟨2, 1⟩ = true := by
  decide

/-! ### Decoding (L2-E1 to L2-E16; words as `{port, phase, eos, data}` of 30_encoding.md R60) -/

theorem test_decode_reset : decode 0b11_000_0_00000000 = .ok .reset ∧ decode 0x3C00 = .ok .reset := by decide
theorem test_decode_pop : decode 0b10_000_0_00000000 = .ok .pop ∧ decode 0x2A00 = .ok .pop := by decide
theorem test_decode_initBuild : decode 0b00_000_0_00000000 = .ok .initBuild ∧ decode 0x01FF = .ok .initBuild := by decide
theorem test_decode_emitPush : decode 0b00_100_0_00000000 = .ok .emitPush := by decide
theorem test_decode_ssStart : decode 0b01_001_0_00101111 = .ok .ssStart := by decide
theorem test_decode_ssEos : decode 0b01_001_1_00000000 = .ok .ssEos ∧ decode 0x13FF = .ok .ssEos := by decide
theorem test_decode_ssDiscard : decode 0b01_001_0_01000001 = .ok (.ssDiscard 0x41) := by decide
theorem test_decode_seEnd : decode 0b01_010_0_00100001 = .ok .seEnd := by decide
theorem test_decode_seEos : decode 0b01_010_1_00000000 = .ok .seEos := by decide
theorem test_decode_seAccum : decode 0b01_010_0_01000001 = .ok (.seAccum 0x41) ∧ decode 0x142F = .ok (.seAccum 0x2F) := by
  decide
theorem test_decode_trEol : decode 0b01_011_0_00001010 = .ok .trEol := by decide
theorem test_decode_trEos : decode 0b01_011_1_00000000 = .ok .trEos := by decide
theorem test_decode_trByte : decode 0b01_011_0_00001101 = .ok (.trByte 0x0D) := by decide
theorem test_decode_noInternal : decode 0x0200 = .error .noInternal ∧ decode 0x0A00 = .error .noInternal := by decide
theorem test_decode_inputNotReady :
    decode 0x1000 = .error .inputNotReady ∧ decode 0x1800 = .error .inputNotReady ∧
      decode 0x1A00 = .error .inputNotReady := by decide
theorem test_decode_reservedPhase :
    decode 0x0C00 = .error .reservedPhase ∧ decode 0x1C41 = .error .reservedPhase ∧
      decode 0x1E0A = .error .reservedPhase := by decide
theorem test_decode_wideNumber : decode 0x4000 = .error .notAWord ∧ decodeTableWord 16 0x4000 = none := by decide

/-! ### The CRC unit (L2-C1 to L2-C33) -/

theorem test_tableEntry :
    [0x00, 0x01, 0x02, 0x80, 0xFF, 0x2F, 0x21].map tableEntry =
      [0x0000, 0xC0C1, 0xC181, 0xA001, 0x4040, 0xDC41, 0x18C0] := by decide
theorem test_crcUpdate :
    crcUpdate 0xDC41 0x21 = 0x28DC ∧ crcUpdate 0x1234 0x56 = 0xE993 ∧ crcUpdate 0xFFFF 0xFF = 0x00FF ∧
      crcUpdate 0x8000 0x00 = 0x0080 := by decide +kernel
theorem test_checksum :
    checksum [0x31, 0x32, 0x33, 0x34, 0x35, 0x36, 0x37, 0x38, 0x39] = 0xBB3D ∧ checksum [] = 0x0000 ∧
      checksum [0x2F, 0x41, 0x42, 0x21] = 0x78A8 := by decide +kernel
theorem test_hex4 :
    hex4 0x00AF = #v[0x30, 0x30, 0x41, 0x46] ∧ hex4 0xBB3D = #v[0x42, 0x42, 0x33, 0x44] := by decide
theorem test_digitsMatch :
    digitsMatch goodDigits 0x28DC = true ∧ digitsMatch #v[0x32, 0x38, 0x64, 0x63] 0x28DC = false ∧
      digitsMatch #v[0x32, 0x38, 0x44, 0x44] 0x28DC = false := by decide

/-! ### One step of each operation -/

/-- L2-R1: the first entry is built. -/
theorem test_initBuild_first :
    (nextOf (step State.reset)).map (fun t => (t.phase, t.buildIdx, t.table)) = some (.init, 1, [(0, 0x0000)]) := by
  decide +kernel

/-- L2-R3: the last entry opens the stream. -/
theorem test_initBuild_last :
    (nextOf (step { State.reset with buildIdx := 255, table := builtTable.take 255 })).map
      (fun t => (t.phase, t.buildIdx, Memory.read t.table 255, t.inReady)) =
      some (.seekStart, 256, some 0x4040, true) := by decide +kernel

/-- L2-R4, the derived signals and the block's registers. -/
theorem test_reset_in_trailer :
    view (nextOf (step { inTrailer goodDigits 2 with hq := [[0x2F, 0x21]], agenda := [.reset] })) =
      some ⟨.init, 0, 0x0000, 0, 0, false, false, none⟩ := by decide +kernel

/-- L2-R5: RESET in DONE begins a new sequence. -/
theorem test_reset_in_done :
    ended.outEnd = true ∧
      view (nextOf (step { ended with agenda := [.reset] })) =
        some ⟨.init, 0, 0x0000, 0, 0, false, false, none⟩ := by decide +kernel

/-- L2-X1. -/
theorem test_ssStart :
    view (offer seeking 0x02F) = some ⟨.seekEnd, 1, 0xDC41, 0, 0, false, false, none⟩ ∧
      (offer seeking 0x02F).map (fun t => t.fbuf) = some [(0, 0x2F)] := by decide +kernel

/-- L2-X2. -/
theorem test_ssDiscard : offer seeking 0x021 = some seeking := by decide +kernel

/-- L2-X5. -/
theorem test_ssEos : view (offer seeking 0x100) = some ⟨.done, 0, 0x0000, 0, 0, true, true, none⟩ := by decide +kernel

/-- L2-X6: the payload is still to be popped. -/
theorem test_ssEos_pending :
    view (offer (withFull seeking) 0x1FF) = some ⟨.done, 0, 0x0000, 0, 1, true, false, none⟩ := by decide +kernel

/-- L2-X8: a start marker inside a frame is captured. -/
theorem test_seAccum_start :
    view (offer inFrame 0x02F) = some ⟨.seekEnd, 2, 0xEC5D, 0, 0, false, false, none⟩ := by decide +kernel

/-- L2-X13. -/
theorem test_seAccum_overflow :
    view (offer fullFrame 0x02F) = some ⟨.seekStart, 2, 0x121C, 0, 0, false, false, some .frameTooLarge⟩ := by
  decide +kernel

/-- L2-X10. -/
theorem test_seEnd : view (offer inFrame 0x021) = some ⟨.trailer, 2, 0x28DC, 0, 0, false, false, none⟩ := by
  decide +kernel

/-- L2-X11. -/
theorem test_seEnd_overflow :
    view (offer fullFrame 0x021) = some ⟨.seekStart, 2, 0x121C, 0, 0, false, false, some .frameTooLarge⟩ := by
  decide +kernel

/-- L2-X14. -/
theorem test_seEos :
    view (offer fullFrame 0x100) = some ⟨.done, 2, 0x121C, 0, 0, true, true, some .streamTerminatorMissing⟩ := by
  decide +kernel

/-- L2-X16: only the digit at `tlen` is written. -/
theorem test_trByte_first :
    (offer (inTrailer #v[1, 2, 3, 4] 0) 0x032).map (fun t => (t.phase, t.tlen, t.tdig)) =
      some (.trailer, 1, #v[0x32, 2, 3, 4]) := by decide +kernel

/-- L2-X18: the count saturates. -/
theorem test_trByte_saturates :
    (offer (inTrailer goodDigits 7) 0x00D).map (fun t => (t.phase, t.tlen, t.tdig)) =
      some (.trailer, 7, goodDigits) := by decide +kernel

/-- L2-X19, L2-X21, L2-X23. -/
theorem test_trEol_verifies :
    view (offer verified 0x00A) = some ⟨.seekStart, 2, 0x28DC, 5, 1, false, false, none⟩ ∧
      view (offer (inTrailer goodDigits 6) 0x00A) =
        some ⟨.seekStart, 2, 0x28DC, 6, 0, false, false, some .trailerLengthMismatch⟩ ∧
      view (offer (inTrailer #v[0x32, 0x38, 0x44, 0x44] 5) 0x00A) =
        some ⟨.seekStart, 2, 0x28DC, 5, 0, false, false, some .checksumMismatch⟩ := by decide +kernel

/-- L2-X26. -/
theorem test_trEol_waits :
    view (offer (withFull verified) 0x00A) = some ⟨.emitWait, 2, 0x28DC, 5, 1, false, false, none⟩ := by decide +kernel

/-- L2-X27. -/
theorem test_trEos :
    view (offer verified 0x100) = some ⟨.done, 2, 0x28DC, 5, 0, true, true, some .trailerLengthMismatch⟩ := by
  decide +kernel

/-- L2-H3. -/
theorem test_emitPush :
    (nextOf (step { heldBack with hq := [] })).map (fun t => (t.phase, t.hq)) =
      some (.seekStart, [[0x2F, 0x21]]) := by decide +kernel

/-- L2-H6: no step while the hand-off is full. -/
theorem test_emitPush_blocked : nextOf (step { heldBack with agenda := [.internal] }) = some heldBack := by
  decide +kernel

/-- L2-H2. -/
theorem test_pop :
    (nextOf (step { heldBack with agenda := [.pop] })).map (fun t => (t.phase, t.hq, t.delivered)) =
      some (.emitWait, [], [[0x2F, 0x21]]) := by decide +kernel

/-- L2-H5: no step while the hand-off is empty. -/
theorem test_pop_empty : nextOf (step { seeking with agenda := [.pop] }) = some seeking := by decide +kernel

/-- L2-H7: the symbol is never consumed. -/
theorem test_done_keeps_symbol :
    (offer ended 0x02F).map (fun t => (t.phase, t.upstream)) = some (.done, [0x02F]) := by decide +kernel

/-- 30_encoding.md R67: an input turn in a reserved phase records the fault, and the symbol stays offered. -/
theorem test_reserved_phase_recorded :
    (nextOf (step { reserved with upstream := [0x02F], agenda := [.input] })).map
      (fun t => (t.phase, t.upstream, t.faultMark)) = some (.reserved6, [0x02F], some .reservedPhase) := by decide +kernel

/-- 30_encoding.md R67, 60_exceptions.md R164: RESET applies and keeps the mark, and the engine takes no step after it. -/
theorem test_marked_engine_stays :
    (nextOf (step { reserved with agenda := [.reset] })).map (fun t => (t.phase, t.faultMark)) =
        some (.init, some .reservedPhase) ∧
      (nextOf (step { State.reset with faultMark := some .reservedPhase })).map (fun t => t.buildIdx) = some 0 := by
  decide +kernel

/-- 60_exceptions.md R164: a state in a reserved phase is no finished run, marked or not. -/
theorem test_reserved_phase_not_finished :
    State.isFinished { ended with phase := .reserved7 } = false ∧ State.isFinished ended = true := by decide

/-- 42_handoff_control.md R136: a POP that can be taken is an enabled step, so nothing waits. -/
theorem test_waiting :
    State.isWaiting heldBack = true ∧ State.isWaiting { heldBack with agenda := [.pop] } = false ∧
      State.isWaiting { seeking with agenda := [.pop] } = true ∧
      State.isWaiting { seeking with agenda := [.reset] } = false := by decide

/-- 20_memory.md R41: the operation faults, and the step records it. -/
theorem test_unbuilt_table_faults :
    faultOf (exec .ssStart { State.reset with phase := .seekStart }) = some .tableNotBuilt ∧
      (offer { State.reset with phase := .seekStart } 0x02F).map (fun t => (t.phase, t.faultMark)) =
        some (.seekStart, some .tableNotBuilt) := by decide +kernel

/-- 92_eei_decisions.md D26: a byte nothing has written since RESET holds no value. -/
theorem test_unwritten_buffer_faults :
    faultOf (exec .trEol { verified with fbuf := [] }) = some .bufferNotWritten := by decide +kernel

/-- A placed word is the operation that the next step runs, right after reset. -/
theorem test_placed_words_run :
    (nextOf (step (State.reset.withFetchWord 16 0x122F))).map (fun t => (t.phase, t.crc, t.upstream)) =
        some (.seekEnd, 0xDC41, []) ∧
      (nextOf (step (State.reset.withFetchWord 16 0x2000))).map (fun t => t.delivered) = some [[0x2F, 0x21]] ∧
      (nextOf (step (State.reset.withFetchWord 16 0x0000))).map (fun t => t.buildIdx) = some 1 := by decide +kernel

/-- `FRAME "/!"` is "/!28DC\r\n" (30_encoding.md R71, program P1). -/
theorem test_assembler_frame :
    (streamFrame [0x2F, 0x21]).flatMap StreamLine.symbols =
      [0x02F, 0x021, 0x032, 0x038, 0x044, 0x043, 0x00D, 0x00A] := by decide +kernel

/-- 30_encoding.md R70: the last INIT_BUILD is taken before the first line. -/
theorem test_program_builds_first :
    (nextOf (runProgram [.byte 0x2F] { State.reset with buildIdx := 255, table := builtTable.take 255 })).map
      (fun t => (t.phase, t.crc)) = some (.seekEnd, 0xDC41) := by decide +kernel

/-- The end of program P4, with the end-of-stream held back by EMIT_WAIT until the first POP. -/
theorem test_program_holds_back :
    (nextOf (runProgram [.eos, .pop, .pop] heldBack)).map (fun t => (t.phase, t.delivered, t.outEnd)) =
      some (.done, [[0x2F, 0x21], [0x2F, 0x21]], true) := by decide +kernel

/-! ### States that meet the hypotheses of the statements -/

theorem legal_short {m : Nat} (h : 2 ≤ m) : LegalPayload m [0x2F, 0x21] :=
  ⟨by simp, h, rfl, rfl, by simp⟩

theorem builtTable_entries : ∀ i : Byte, Memory.read builtTable i.toNat = some (tableEntry i) := by
  have read_map : ∀ (l : List Nat) (g : Nat → Word) (k : Nat), k ∈ l →
      Memory.read (l.map fun i => (i, g i)) k = some (g k) := by
    intro l g k
    induction l with
    | nil => simp
    | cons a l ih =>
      intro h
      by_cases ha : a = k
      · simp [Memory.read, ha]
      · simpa [Memory.read, ha] using ih (by simpa [Ne.symm ha] using h)
  intro i
  have h := read_map (List.range Config.tableEntries) (fun i => tableEntry (BitVec.ofNat 8 i)) i.toNat
    (List.mem_range.mpr i.isLt)
  rwa [BitVec.ofNat_toNat, BitVec.setWidth_eq] at h

theorem builtTable_wf : Memory.wf builtTable :=
  List.pairwise_map.mpr List.pairwise_lt_range

/-- The invariants of a state after INIT, from its data: `p` is the payload captured so far. -/
theorem inv_of_data {s : State} {p : List Byte} (hm : s.params.wf = true) (hr : s.phase.isReserved = false)
    (hi : s.phase ≠ .init) (hb : s.buildIdx = 256) (ht : s.table = builtTable) (hf : Memory.wf s.fbuf)
    (hl : s.flen ≤ s.params.maxFrame) (hp : s.payload = .ok p)
    (hc : s.holdsFrame = true → p.head? = some Config.startMark ∧ s.crc = checksum p)
    (hs : s.phase = .seekEnd → Config.endMark ∉ p)
    (hd : s.phase = .trailer ∨ s.phase = .emitWait → LegalPayload s.params.maxFrame p)
    (hw : s.phase = .emitWait → s.tlen = 5 ∧ s.tdig = hex4 s.crc) (hq : s.hq.length ≤ s.params.handoffDepth)
    (hh : ∀ q ∈ s.hq, LegalPayload s.params.maxFrame q) (he : s.seqDone = true ↔ s.phase = .done)
    (hn : s.faultMark = none) : Inv s where
  params := hm
  phase := hr
  built _ := hb
  building h := absurd h hi
  table i _ := by rw [ht]; exact builtTable_entries i
  tableWf := by rw [ht]; exact builtTable_wf
  fbufWf := hf
  flen := hl
  frame h := ⟨p, hp, hc h⟩
  seeking h q hq' := by rw [hp] at hq'; cases hq'; exact hs h
  complete h q hq' := by rw [hp] at hq'; cases hq'; exact hd h
  waiting := hw
  capacity := hq
  handoff := hh
  initEmpty h := absurd h hi
  finished := he
  noFault := hn

/-- SEEK_START, whatever the agents around the block have before them. -/
theorem inv_seeking (us : List Symbol) (ag : List Port) : Inv { seeking with upstream := us, agenda := ag } :=
  inv_of_data (p := []) rfl rfl (by simp [seeking]) rfl rfl (by simp [seeking, State.reset, State.resetWith])
    (by simp [seeking, State.reset, State.resetWith]) rfl (by simp [State.holdsFrame, seeking]) (by simp [seeking])
    (by simp [seeking]) (by simp [seeking]) (by simp [seeking, State.reset, State.resetWith])
    (by simp [seeking, State.reset, State.resetWith]) (by simp [seeking, State.reset, State.resetWith]) rfl

/-- SEEK_START with a full hand-off. -/
theorem inv_seeking_full (us : List Symbol) (ag : List Port) :
    Inv { withFull seeking with upstream := us, agenda := ag } :=
  inv_of_data (p := []) rfl rfl (by simp [withFull, seeking]) rfl rfl
    (by simp [withFull, seeking, State.reset, State.resetWith])
    (by simp [withFull, seeking, State.reset, State.resetWith]) rfl (by simp [State.holdsFrame, withFull, seeking])
    (by simp [withFull, seeking]) (by simp [withFull, seeking]) (by simp [withFull, seeking]) (by simp [withFull])
    (by simp only [withFull, List.mem_singleton]; rintro q rfl; exact legal_short (by decide))
    (by simp [withFull, seeking, State.reset, State.resetWith]) rfl

theorem checksum_short : (0x28DC : Word) = checksum [0x2F, 0x21] := by decide +kernel

/-- TRAILER with a right trailer, and room for its payload. -/
theorem inv_verified (us : List Symbol) (ag : List Port) : Inv { verified with upstream := us, agenda := ag } :=
  inv_of_data (p := [0x2F, 0x21]) rfl rfl (by simp [verified, inTrailer]) rfl rfl (by simp [verified, inTrailer])
    (by simp [verified, inTrailer, seeking, State.reset, State.resetWith, Params.default]) rfl
    (fun _ => ⟨rfl, checksum_short⟩) (by simp [verified, inTrailer]) (fun _ => legal_short (m := 4096) (by decide))
    (by simp [verified, inTrailer]) (by simp [verified, inTrailer, seeking, State.reset, State.resetWith])
    (by simp [verified, inTrailer, seeking, State.reset, State.resetWith])
    (by simp [verified, inTrailer, seeking, State.reset, State.resetWith]) rfl

/-- TRAILER with a right trailer, and no room for its payload. -/
theorem inv_verified_full (us : List Symbol) (ag : List Port) :
    Inv { withFull verified with upstream := us, agenda := ag } :=
  inv_of_data (p := [0x2F, 0x21]) rfl rfl (by simp [withFull, verified, inTrailer]) rfl rfl
    (by simp [withFull, verified, inTrailer]) (by simp [withFull, verified, inTrailer]) rfl
    (fun _ => ⟨rfl, checksum_short⟩) (by simp [withFull, verified, inTrailer])
    (fun _ => legal_short (m := 4) (by decide)) (by simp [withFull, verified, inTrailer]) (by simp [withFull])
    (by simp only [withFull, List.mem_singleton]; rintro q rfl; exact legal_short (by decide))
    (by simp [withFull, verified, inTrailer, seeking, State.reset, State.resetWith]) rfl

/-- DONE with nothing to deliver. -/
theorem inv_ended (us : List Symbol) (ag : List Port) : Inv { ended with upstream := us, agenda := ag } :=
  inv_of_data (p := []) rfl rfl (by simp [ended]) rfl rfl (by simp [ended, seeking, State.reset, State.resetWith])
    (by simp [ended, seeking, State.reset, State.resetWith]) rfl (by simp [State.holdsFrame, ended])
    (by simp [ended]) (by simp [ended]) (by simp [ended]) (by simp [ended, seeking, State.reset, State.resetWith])
    (by simp [ended, seeking, State.reset, State.resetWith]) (by simp [ended]) rfl

theorem inv_reset : Inv State.reset := by
  constructor <;> simp [State.reset, State.resetWith, State.holdsFrame, Params.wf, Params.default]

theorem builtTable_ready {s : State} (hb : s.buildIdx = 256) (ht : s.table = builtTable) : s.tableReady :=
  ⟨by simp [State.tableValid, hb], by rw [ht]; exact builtTable_entries⟩

theorem witness_EncodedOperationsDecodeBack :
    WellFormed (.ssDiscard 0x2E) = true ∧ WellFormed (.seAccum 0x22) = true ∧ WellFormed (.trByte 0xFF) = true ∧
      WellFormed .reset = true := by decide

theorem witness_DecodedOperationsAreWellFormed :
    (decodeWord 0x01FF = .ok .initBuild ∧ opPort 0x01FF = .internal) ∧
      (decodeWord 0x13FF = .ok .ssEos ∧ opPort 0x13FF = .input) ∧
      (decodeWord 0x1230 = .ok (.ssDiscard 0x30) ∧ opPort 0x1230 = .input ∧ (0x1230 : OpWord).getLsbD 8 = false) := by
  decide

theorem witness_TableEntriesAreDistinct :
    ∃ a b : Byte, (tableEntry a).extractLsb' 8 8 = (tableEntry b).extractLsb' 8 8 := ⟨0xFF, 0xFF, rfl⟩

theorem witness_ChecksumIsLinear : ∃ a b : List Byte, a ≠ [] ∧ a.length = b.length := ⟨[0x2F], [0x21], by simp, rfl⟩

theorem witness_OneChangedByteChangesDigits : ∃ b b' : Byte, b ≠ b' := ⟨0x00, 0xFF, by decide⟩

theorem witness_DigitsMatchOneValueInUppercase :
    hex4 0xFFFF = hex4 0xFFFF ∧ 0x30 ∈ (hex4 0x0123).toList ∧ 0x39 ∈ (hex4 0x9000).toList ∧
      0x41 ∈ (hex4 0x000A).toList ∧ 0x46 ∈ (hex4 0xFFFF).toList := by decide

theorem witness_InitBuildWritesNextEntry :
    (State.reset.phase = .init ∧ State.reset.buildIdx.toNat < 256) ∧
      (({ State.reset with buildIdx := 255 } : State).phase = .init ∧
        ({ State.reset with buildIdx := 255 } : State).buildIdx.toNat = 255) := by decide

theorem witness_InitTakes256StepsToFullTable :
    ∃ s : State, s.phase = .init ∧ s.buildIdx = 0 ∧ s.faultMark = none ∧ s.agenda ≠ [] ∧ ∀ p ∈ s.agenda.take 256, p = .internal :=
  ⟨{ State.reset with agenda := [.internal, .internal] }, rfl, rfl, rfl, by simp, by simp⟩

theorem witness_SsStartOpensFrame : seeking.phase = .seekStart ∧ seeking.tableReady ∧ 0 < seeking.params.maxFrame :=
  ⟨rfl, builtTable_ready rfl rfl, by decide⟩

theorem witness_SsEosEndsSequence : seeking.phase = .seekStart := rfl

theorem witness_SsDiscardChangesNothing : seeking.phase = .seekStart := rfl

/-- The last byte that fits. -/
theorem witness_SeAccumCapturesByte :
    ∃ s : State, s.phase = .seekEnd ∧ s.tableReady ∧ s.flen < s.params.maxFrame ∧ s.flen + 1 = s.params.maxFrame :=
  ⟨{ inFrame with params := ⟨2, 1⟩ }, rfl, builtTable_ready rfl rfl, by decide, rfl⟩

theorem witness_SeEndCapturesTerminator :
    ∃ s : State, s.phase = .seekEnd ∧ s.tableReady ∧ s.flen < s.params.maxFrame ∧ s.flen + 1 = s.params.maxFrame :=
  ⟨{ inFrame with params := ⟨2, 1⟩ }, rfl, builtTable_ready rfl rfl, by decide, rfl⟩

theorem witness_FullBufferDropsFrame :
    fullFrame.phase = .seekEnd ∧ fullFrame.flen = fullFrame.params.maxFrame ∧
      ∀ i : Instr, i = .seEnd ∨ i = .seAccum 0x2F → (i = .seEnd ∨ ∃ b, i = .seAccum b) :=
  ⟨rfl, rfl, fun _ h => h.imp id fun h => ⟨_, h⟩⟩

theorem witness_SeEosReportsMissingTerminator : inFrame.phase = .seekEnd := rfl

theorem witness_TrByteKeepsFourDigits : (inTrailer goodDigits 3).phase = .trailer := rfl

theorem witness_FifthTrailerByteIsNotTested :
    (inTrailer goodDigits 4).phase = .trailer ∧ (inTrailer goodDigits 4).tlen = 4 := ⟨rfl, rfl⟩

/-- One state for each clause: the line too short and too long, wrong digits, the last free place, no place. -/
theorem witness_TrEolVerifiesFrame :
    ((inTrailer goodDigits 4).phase = .trailer ∧ (inTrailer goodDigits 4).tlen ≠ 5 ∧ (inTrailer goodDigits 6).tlen ≠ 5) ∧
      ((inTrailer #v[0x32, 0x38, 0x44, 0x44] 5).tlen = 5 ∧
        (inTrailer #v[0x32, 0x38, 0x44, 0x44] 5).tdig ≠ hex4 0x28DC) ∧
      (∃ s : State, s.phase = .trailer ∧ s.tlen = 5 ∧ s.tdig = hex4 s.crc ∧ s.hq.length < s.params.handoffDepth ∧
        s.hq.length + 1 = s.params.handoffDepth ∧ ∃ p, s.payload = .ok p) ∧
      ((withFull verified).phase = .trailer ∧ (withFull verified).tlen = 5 ∧
        (withFull verified).tdig = hex4 (withFull verified).crc ∧
        (withFull verified).params.handoffDepth ≤ (withFull verified).hq.length) :=
  ⟨by decide, by decide,
    ⟨{ withFull verified with hq := [] }, rfl, rfl, by decide, by decide, rfl, _, rfl⟩, by decide⟩

theorem witness_TrEosDropsFrame : verified.phase = .trailer := rfl

theorem witness_CaptureExtendsPayload :
    inFrame.phase = .seekEnd ∧ inFrame.flen < inFrame.params.maxFrame ∧ inFrame.payload = .ok [0x2F] ∧
      (∃ t, exec (.seAccum 0x41) inFrame = .next t) ∧ (∃ t, exec .seEnd inFrame = .next t) ∧ 0 ≠ inFrame.flen :=
  ⟨rfl, by decide, rfl, next_of_isSome (by decide +kernel), next_of_isSome (by decide +kernel), by decide⟩

/-- Each operation answers a next state in its own phase. -/
theorem operations_run :
    (nextOf (exec .pop (withFull seeking))).isSome ∧ (nextOf (exec .initBuild State.reset)).isSome ∧
      (nextOf (exec .emitPush { heldBack with hq := [] })).isSome ∧ (nextOf (exec .ssStart seeking)).isSome ∧
      (nextOf (exec .ssEos seeking)).isSome ∧ (nextOf (exec (.ssDiscard 0x41) seeking)).isSome ∧
      (nextOf (exec .seEnd inFrame)).isSome ∧ (nextOf (exec .seEos inFrame)).isSome ∧
      (nextOf (exec (.seAccum 0x41) inFrame)).isSome ∧ (nextOf (exec .trEol verified)).isSome ∧
      (nextOf (exec .trEos verified)).isSome ∧ (nextOf (exec (.trByte 0x41) verified)).isSome := by decide +kernel

/-- TR_BYTE meets the condition of every clause but the one on the digits; SS_DISCARD meets that one. -/
theorem witness_OnlyNamedOperationsWrite :
    (∃ t, exec (.trByte 0x41) verified = .next t) ∧ (∃ t, exec (.ssDiscard 0x41) seeking = .next t) ∧
      (∃ t, exec (.seAccum 0x41) inFrame = .next t) ∧ inFrame.flen ≠ inFrame.params.maxFrame ∧
      (∃ t, exec .pop (withFull seeking) = .next t) ∧ storedIndex (.trByte 0x41) verified ≠ some 0 ∧
      storedIndex (.seAccum 0x41) inFrame ≠ some 0 ∧ storedIndex .ssStart seeking ≠ some 1 :=
  ⟨next_of_isSome (by decide +kernel), next_of_isSome (by decide +kernel), next_of_isSome (by decide +kernel),
    by decide, next_of_isSome (by decide +kernel), by decide, by decide, by decide⟩

theorem witness_OperationsKeepEnvironment :
    (∃ t, exec .pop (withFull seeking) = .next t) ∧ ∃ t, exec .ssStart seeking = .next t :=
  ⟨next_of_isSome (by decide +kernel), next_of_isSome (by decide +kernel)⟩

theorem witness_OperationOutsideItsPhaseWaits :
    homePhase .ssStart = some .seekStart ∧ inFrame.phase ≠ .seekStart ∧ reserved.phase ≠ .seekStart := by decide

theorem witness_EmitPushEmitsWhenRoom :
    heldBack.phase = .emitWait ∧ heldBack.params.handoffDepth ≤ heldBack.hq.length ∧
      ∃ s : State, s.phase = .emitWait ∧ s.hq.length < s.params.handoffDepth ∧ ∃ p, s.payload = .ok p :=
  ⟨rfl, by decide, { heldBack with hq := [] }, rfl, by decide, _, rfl⟩

theorem witness_PopDeliversHead :
    (withFull seeking).hq = [0x2F, 0x21] :: [] ∧ seeking.hq = [] ∧ seeking.phase.isReserved = false := ⟨rfl, rfl, rfl⟩

theorem witness_HandoffIsFifo : ∃ t, exec .trEol verified = .next t ∧ Instr.trEol ≠ .reset := by
  obtain ⟨t, h⟩ := next_of_isSome (r := exec .trEol verified) (by decide +kernel)
  exact ⟨t, h, by decide⟩

theorem witness_OnlyVerifiedPayloadsEnter :
    ∃ s t : State, Inv s ∧ step s = .next t ∧ ∃ p, t.hq = s.hq ++ [p] := by
  obtain ⟨t, h, ht⟩ := next_of_map (r := step { verified with upstream := [0x00A], agenda := [] })
    (f := fun t => t.hq) (v := [[0x2F, 0x21]]) (by decide +kernel)
  exact ⟨_, t, inv_verified _ _, h, _, ht⟩

theorem witness_EmitWaitEnteredOnlyWhenFull :
    ∃ s t : State, Inv s ∧ exec .trEol s = .next t ∧ s.phase ≠ .emitWait ∧ t.phase = .emitWait := by
  obtain ⟨t, h, ht⟩ := next_of_map (r := exec .trEol { withFull verified with upstream := [], agenda := [] })
    (f := fun t => t.phase) (v := .emitWait) (by decide +kernel)
  exact ⟨_, t, inv_verified_full _ _, h, by decide, ht⟩

theorem witness_EndOfSequenceStaysUntilReset :
    ∃ s t : State, Inv s ∧ s.outEnd = true ∧ s.nextPort ≠ .reset ∧ step s = .next t := by
  obtain ⟨t, h⟩ := next_of_isSome (r := step { ended with upstream := [0x02F], agenda := [.input] }) (by decide +kernel)
  exact ⟨_, t, inv_ended _ _, rfl, by decide, h⟩

theorem witness_DoneIsTerminal :
    (ended.phase = .done ∧ ended.nextPort ≠ .reset ∧ ended.nextPort ≠ .pop) ∧
      (({ withFull ended with agenda := [.pop] } : State).phase = .done ∧
        ({ withFull ended with agenda := [.pop] } : State).nextPort = .pop ∧
        ({ withFull ended with agenda := [.pop] } : State).hq ≠ []) := by decide

/-- One state for each of the four reports. -/
theorem witness_ReportsNameTheirCause :
    (∃ t, exec .seEos inFrame = .next t ∧ t.report = some .streamTerminatorMissing) ∧
      (∃ t, exec .trEol (inTrailer goodDigits 6) = .next t ∧ t.report = some .trailerLengthMismatch) ∧
      (∃ t, exec .trEol (inTrailer #v[0x32, 0x38, 0x64, 0x63] 5) = .next t ∧ t.report = some .checksumMismatch) ∧
      (∃ t, exec .seEnd fullFrame = .next t ∧ t.report = some .frameTooLarge) :=
  ⟨next_of_map (f := fun t => t.report) (by decide +kernel), next_of_map (f := fun t => t.report) (by decide +kernel),
    next_of_map (f := fun t => t.report) (by decide +kernel), next_of_map (f := fun t => t.report) (by decide +kernel)⟩

theorem witness_HistoryGrowsByShownReport : ∃ t, step State.reset = .next t := next_of_isSome (by decide +kernel)

theorem witness_ReportedFrameIsDropped : ∃ s t : State, step s = .next t ∧ t.report ≠ none := by
  obtain ⟨t, h, ht⟩ := next_of_map (r := step { fullFrame with upstream := [0x021] })
    (f := fun t => t.report) (v := some .frameTooLarge) (by decide +kernel)
  exact ⟨_, t, h, by rw [ht]; simp⟩

/-- A reserved phase not marked yet, and a marked machine in a legal phase, for each of the four turns. -/
theorem witness_ReservedPhaseStopsEngine :
    (reserved.phase.isReserved = true ∧ reserved.faultMark = none ∧ reserved.observedFault ≠ none) ∧
      ∀ s : State, s = reserved ∨ s = { seeking with faultMark := some .tableNotBuilt } →
        s.observedFault ≠ none ∧ ({ s with agenda := [.internal] } : State).nextPort = .internal ∧
          ({ s with agenda := [.input] } : State).nextPort = .input ∧
          ({ s with agenda := [.reset] } : State).nextPort = .reset ∧
          ({ s with agenda := [.pop] } : State).nextPort = .pop :=
  ⟨by decide, by rintro s (rfl | rfl) <;> decide⟩

theorem witness_FaultMarkIsPermanent : ∃ s t : State, Reaches s t ∧ s.faultMark ≠ none :=
  ⟨{ seeking with faultMark := some .reservedPhase }, _, .refl _, by simp⟩

theorem witness_UnbuiltTableReadFaults :
    State.reset.tableValid = false ∧ ({ State.reset with phase := .seekStart } : State).phase = .seekStart ∧
      0 < State.reset.params.maxFrame ∧ ({ State.reset with phase := .seekEnd } : State).phase = .seekEnd ∧
      State.reset.flen ≠ State.reset.params.maxFrame := by decide

/-- An internal turn and an input turn whose operations answer a next state, and an input turn whose operation faults. -/
theorem witness_StepRunsDecodedOperation :
    (State.reset.nextPort = .internal ∧ State.reset.faultMark = none ∧
      decodeWord (State.reset.opWord State.reset.nextPort) = .ok .initBuild ∧
      ∃ t, exec .initBuild State.reset = .next t) ∧
    (∃ s : State, s.nextPort = .input ∧ s.upstream ≠ [] ∧ s.faultMark = none ∧
      decodeWord (s.opWord s.nextPort) = .ok .ssStart ∧ ∃ t, exec .ssStart { s with upstream := [] } = .next t) ∧
    (∃ s : State, s.nextPort = .input ∧ s.upstream ≠ [] ∧ s.faultMark = none ∧
      decodeWord (s.opWord s.nextPort) = .ok .ssStart ∧
      exec .ssStart { s with upstream := [] } = .fault .tableNotBuilt) :=
  ⟨⟨by decide, rfl, by decide, next_of_isSome (by decide +kernel)⟩,
    ⟨{ seeking with upstream := [0x02F] }, by decide, by decide, rfl, by decide, next_of_isSome (by decide +kernel)⟩,
    ⟨{ State.reset with phase := .seekStart, upstream := [0x02F] }, by decide, by decide, rfl, by decide, rfl⟩⟩

theorem witness_TurnWordCarriesPhaseAndSymbol :
    Port.pop ≠ .input ∧ ∃ (s : State) (x : Symbol) (rest : List Symbol), s.upstream = x :: rest :=
  ⟨by decide, { seeking with upstream := [0x1FF] }, _, _, rfl⟩

theorem witness_DisabledTurnWaits :
    seeking.phase.isReserved = false ∧ ({ seeking with agenda := [.pop] } : State).enabled .pop = false ∧
      ({ State.reset with agenda := [.input], upstream := [0x02F] } : State).enabled .input = false := by decide

theorem witness_InternalAndInputExclude :
    ({ State.reset with upstream := [0x02F] } : State).enabled .internal = true := by decide

theorem witness_EmptyAgendaIsEager :
    (State.reset.agenda = [] ∧ State.reset.enabled .internal = true) ∧
      ∃ s : State, s.agenda = [] ∧ s.enabled .internal = false ∧ s.enabled .input = true :=
  ⟨by decide, { seeking with upstream := [0x100] }, rfl, by decide, by decide⟩

theorem witness_ResetMeetsInvariants : Params.wf ⟨2, 1⟩ = true := by decide

theorem witness_EveryStepKeepsInvariants : ∃ s t : State, Inv s ∧ step s = .next t := by
  obtain ⟨t, h⟩ := next_of_isSome (r := step { seeking with upstream := [0x02F], agenda := [] }) (by decide +kernel)
  exact ⟨_, t, inv_seeking _ _, h⟩

theorem witness_GoodStatesNeverFault : Inv { verified with upstream := [0x00A], agenda := [.input] } := inv_verified _ _

theorem witness_CanonicalMemoriesReadAlikeAreEqual :
    ∃ m m' : List (Nat × Byte), Memory.wf m ∧ Memory.wf m' ∧ ∀ k, Memory.read m k = Memory.read m' k :=
  ⟨[(0, 0x2F), (1, 0x21)], [(0, 0x2F), (1, 0x21)], by decide, by decide, fun _ => rfl⟩

/-- Both clauses: room in the hand-off, and none. -/
theorem witness_ValidFrameYieldsItsBody :
    ∃ (u : List Symbol) (a : List Port),
      u = (frameBytes [0x2F, 0x21]).map byteSymbol ++ [0x100] ∧
      a = List.replicate (frameBytes [0x2F, 0x21]).length .input ++ [.pop] ∧
      (Inv { seeking with upstream := u, agenda := a } ∧ seeking.phase = .seekStart ∧
        LegalPayload seeking.params.maxFrame [0x2F, 0x21] ∧ seeking.hqFull = false) ∧
      (Inv { withFull seeking with upstream := u, agenda := a } ∧ (withFull seeking).phase = .seekStart ∧
        LegalPayload (withFull seeking).params.maxFrame [0x2F, 0x21] ∧ (withFull seeking).hqFull = true) :=
  ⟨_, _, rfl, rfl, ⟨inv_seeking _ _, rfl, legal_short (by decide), rfl⟩,
    ⟨inv_seeking_full _ _, rfl, legal_short (by decide), rfl⟩⟩

/-- A stream whose one marker no terminator follows, in SEEK_START, and the state after reset. -/
theorem witness_NoMarkedRegionNoPayload :
    (∃ s t : State, Inv s ∧ s.phase = .seekStart ∧ s.hq = [] ∧ s.delivered = [] ∧ s.upstream = [0x02F] ∧
      (∀ pre mid post : List Symbol, s.upstream ≠ pre ++ byteSymbol 0x2F :: (mid ++ byteSymbol 0x21 :: post)) ∧
      Reaches s t) ∧
    (Inv State.reset ∧ State.reset.phase = .init ∧
      ∀ pre mid post : List Symbol, State.reset.upstream ≠ pre ++ byteSymbol 0x2F :: (mid ++ byteSymbol 0x21 :: post)) := by
  refine ⟨⟨_, _, inv_seeking [0x02F] [], rfl, rfl, rfl, rfl, fun pre mid post h => ?_, .refl _⟩, inv_reset, rfl,
    fun pre mid post h => ?_⟩
  · have := congrArg List.length h
    simp at this
    omega
  · simp [State.reset, State.resetWith] at h

/-- Both outcomes: orders that give one state, and a verified payload that finds the hand-off full. -/
theorem witness_PopCommutesWithOtherSteps :
    ∀ i : Instr, i = .ssStart ∨ i = .trEol →
      ∃ s t u v : State, Inv s ∧ s.hq ≠ [] ∧ homePhase i ≠ none ∧ homePhase i = some s.phase ∧
        exec i s = .next t ∧ exec .pop s = .next u ∧ exec i u = .next v := by
  have triple : ∀ (i : Instr) (s : State),
      (nextOf (exec i s)).isSome = true → ((nextOf (exec .pop s)).bind fun u => nextOf (exec i u)).isSome = true →
      ∃ t u v, exec i s = .next t ∧ exec .pop s = .next u ∧ exec i u = .next v := by
    intro i s h h'
    obtain ⟨t, ht⟩ := next_of_isSome h
    cases hu : exec .pop s with
    | next u =>
      rw [hu] at h'
      obtain ⟨v, hv⟩ := next_of_isSome h'
      exact ⟨t, u, v, ht, rfl, hv⟩
    | fault f => rw [hu] at h'; simp [nextOf] at h'
    | refused r => rw [hu] at h'; simp [nextOf] at h'
  rintro i (rfl | rfl)
  · obtain ⟨t, u, v, ht, hu, hv⟩ := triple .ssStart { withFull seeking with upstream := [], agenda := [] }
      (by decide +kernel) (by decide +kernel)
    exact ⟨_, t, u, v, inv_seeking_full _ _, by decide, by decide, rfl, ht, hu, hv⟩
  · obtain ⟨t, u, v, ht, hu, hv⟩ := triple .trEol { withFull verified with upstream := [], agenda := [] }
      (by decide +kernel) (by decide +kernel)
    exact ⟨_, t, u, v, inv_verified_full _ _, by decide, by decide, rfl, ht, hu, hv⟩

theorem witness_OutputIndependentOfSchedule :
    ∃ (s t u : State) (a b : List Port), Inv s ∧ .reset ∉ a ∧ .reset ∉ b ∧ a ≠ b ∧
      Reaches { s with agenda := a } t ∧ Reaches { s with agenda := b } u ∧ t.outEnd = true ∧ u.outEnd = true := by
  obtain ⟨t, h, ht⟩ := next_of_map (r := step { seeking with upstream := [0x100], agenda := [.input] })
    (f := fun t => t.outEnd) (v := true) (by decide +kernel)
  obtain ⟨u, h', hu⟩ := next_of_map (r := step { seeking with upstream := [0x100], agenda := [.input, .pop] })
    (f := fun t => t.outEnd) (v := true) (by decide +kernel)
  exact ⟨{ seeking with upstream := [0x100], agenda := [] }, t, u, [.input], [.input, .pop], inv_seeking _ _, by decide,
    by decide, by decide, .tail (.refl _) h, .tail (.refl _) h', ht, hu⟩

theorem witness_FairTurnsReachEndOfSequence :
    ∃ (s : State) (n : Nat), Inv s ∧ (∃ x ∈ s.upstream, x.getLsbD 8 = true) ∧
      256 + s.upstream.length + s.hq.length + 1 ≤ n ∧
      s.agenda = (List.replicate n [Port.internal, .input, .pop]).flatten :=
  ⟨_, 259, inv_seeking [0x02F, 0x100] _, ⟨0x100, by simp, by decide⟩, by decide, rfl⟩

theorem witness_StreamProgramLeavesNoStepPending : Inv { seeking with upstream := [0x02F], agenda := [.pop] } :=
  inv_seeking _ _

end Sys2Proof.Tests
end

namespace Sys2Proof.Machine

/-! ### What an operation leaves to the environment

The parameters, the agents' pending moves and the two output histories are not state of the block (00_scope.md R7,
10_state.md R27). One law for each, over the arms of `OpEffect`. -/

@[simp] theorem buildEntry_params (s : State) : (buildEntry s).params = s.params := rfl
@[simp] theorem buildEntry_upstream (s : State) : (buildEntry s).upstream = s.upstream := rfl
@[simp] theorem buildEntry_agenda (s : State) : (buildEntry s).agenda = s.agenda := rfl
@[simp] theorem buildEntry_report (s : State) : (buildEntry s).report = s.report := rfl
@[simp] theorem buildEntry_reportLog (s : State) : (buildEntry s).reportLog = s.reportLog := rfl
@[simp] theorem buildEntry_delivered (s : State) : (buildEntry s).delivered = s.delivered := rfl

/-- The parameters are fixed when the block is built (00_scope.md R7). -/
theorem OpEffect.params_eq {i : Instr} {s t : State} (h : OpEffect i s t) : t.params = s.params := by
  cases h <;> simp

/-- An operation takes nothing from the upstream: the step that runs it has consumed the symbol. -/
theorem OpEffect.upstream_eq {i : Instr} {s t : State} (h : OpEffect i s t) : t.upstream = s.upstream := by
  cases h <;> simp

theorem OpEffect.agenda_eq {i : Instr} {s t : State} (h : OpEffect i s t) : t.agenda = s.agenda := by
  cases h <;> simp

/-- The report history grows by exactly what the report port shows (60_exceptions.md R150). -/
theorem OpEffect.reportLog_eq {i : Instr} {s t : State} (h : OpEffect i s t) :
    t.reportLog = s.reportLog ++ t.report.toList := by
  cases h <;> simp

/-- Only POP delivers (42_handoff_control.md R133). -/
theorem OpEffect.delivered_eq {i : Instr} {s t : State} (h : OpEffect i s t) (hi : i ≠ .pop) :
    t.delivered = s.delivered := by
  cases h with
  | pop _ => exact absurd rfl hi
  | _ => simp

/-- POP puts the payload it delivers behind those delivered before; no other arm touches them. -/
theorem OpEffect.delivered_prefix {i : Instr} {s t : State} (h : OpEffect i s t) : s.delivered <+: t.delivered := by
  cases h with
  | pop _ => exact List.prefix_append ..
  | _ => simp

/-- Settles O28: `exec_effect` gives the arm that ran, and each law above reads one field off it. -/
theorem operationsKeepEnvironment : Obligations.OperationsKeepEnvironment := by
  unfold Obligations.OperationsKeepEnvironment
  intro i s t h
  have he : OpEffect i s t := exec_effect h
  have hlog : s.reportLog <+: t.reportLog := ⟨t.report.toList, he.reportLog_eq.symm⟩
  exact ⟨he.params_eq, he.upstream_eq, he.agenda_eq, hlog, he.delivered_prefix, he.delivered_eq⟩

end Sys2Proof.Machine

namespace Sys2Proof.Machine

/-! ### Who writes each state element

The column "written by" of 10_state.md R10, read from the other side: one law for each element, over the arms of
`OpEffect`. -/

@[simp] theorem buildEntry_buildIdx (s : State) : (buildEntry s).buildIdx = s.buildIdx + 1 := rfl
@[simp] theorem buildEntry_table (s : State) :
    (buildEntry s).table =
      Memory.write s.table (s.buildIdx.setWidth 8 : Byte).toNat (tableEntry (s.buildIdx.setWidth 8)) := rfl
@[simp] theorem buildEntry_phase (s : State) :
    (buildEntry s).phase = if s.buildIdx + 1 = 256 then .seekStart else s.phase := rfl

/-- The four operations that R10 names as leaving the phase alone, SE_ACCUM outside its overflow arm. -/
theorem OpEffect.phase_eq {i : Instr} {s t : State} (h : OpEffect i s t)
    (hi : (∃ b, i = .ssDiscard b ∨ i = .trByte b ∨ (i = .seAccum b ∧ s.flen ≠ s.params.maxFrame)) ∨ i = .pop) :
    t.phase = s.phase := by
  obtain ⟨b, rfl | rfl | ⟨rfl, hroom⟩⟩ | rfl := hi
  · cases h with
    | idle _ => rfl
  · cases h with
    | idle _ | trailerByte _ => rfl
  · cases h with
    | accumOverflow _ hfull => exact absurd hfull hroom
    | idle _ | accum _ _ _ => rfl
  · cases h with
    | idle _ | pop _ | popEmpty _ => rfl

theorem OpEffect.table_eq {i : Instr} {s t : State} (h : OpEffect i s t) (hr : i ≠ .reset) (hb : i ≠ .initBuild) :
    t.buildIdx = s.buildIdx ∧ t.table = s.table := by
  cases h with
  | reset => exact absurd rfl hr
  | build _ => exact absurd rfl hb
  | _ => exact ⟨rfl, rfl⟩

theorem OpEffect.crc_flen_eq {i : Instr} {s t : State} (h : OpEffect i s t) (hr : i ≠ .reset)
    (ha : ∀ b, i ≠ .seAccum b) (hs : i ≠ .ssStart) (he : i ≠ .seEnd) : t.crc = s.crc ∧ t.flen = s.flen := by
  cases h with
  | reset => exact absurd rfl hr
  | accum _ _ _ => exact absurd rfl (ha _)
  | start _ _ _ => exact absurd rfl hs
  | terminate _ _ _ => exact absurd rfl he
  | _ => exact ⟨rfl, rfl⟩

/-- Of the frame buffer an operation writes only the byte it stores (20_memory.md R42). -/
theorem OpEffect.read_fbuf_eq {i : Instr} {s t : State} {k : Nat} (h : OpEffect i s t) (hr : i ≠ .reset)
    (hk : storedIndex i s ≠ some k) : Memory.read t.fbuf k = Memory.read s.fbuf k := by
  cases h with
  | reset => exact absurd rfl hr
  | start hp _ _ => exact memory_read_write_other _ _ (by simpa [storedIndex, hp] using hk)
  | accum hp hm _ | terminate hp hm _ => exact memory_read_write_other _ _ (by simpa [storedIndex, hp, hm] using hk)
  | _ => rfl

theorem OpEffect.tdig_eq {i : Instr} {s t : State} (h : OpEffect i s t) (hr : i ≠ .reset) (hb : ∀ b, i ≠ .trByte b) :
    t.tdig = s.tdig := by
  cases h with
  | reset => exact absurd rfl hr
  | trailerByte _ => exact absurd rfl (hb _)
  | _ => rfl

theorem OpEffect.tlen_eq {i : Instr} {s t : State} (h : OpEffect i s t) (hr : i ≠ .reset) (hb : ∀ b, i ≠ .trByte b)
    (hs : i ≠ .ssStart) (he : i ≠ .seEnd) : t.tlen = s.tlen := by
  cases h with
  | reset => exact absurd rfl hr
  | trailerByte _ => exact absurd rfl (hb _)
  | start _ _ _ => exact absurd rfl hs
  | terminate _ _ _ => exact absurd rfl he
  | _ => rfl

theorem OpEffect.hq_eq {i : Instr} {s t : State} (h : OpEffect i s t) (hr : i ≠ .reset) (he : i ≠ .trEol)
    (hu : i ≠ .emitPush) (hp : i ≠ .pop) : t.hq = s.hq := by
  cases h with
  | reset => exact absurd rfl hr
  | verified _ _ _ _ _ => exact absurd rfl he
  | emit _ _ _ => exact absurd rfl hu
  | pop _ => exact absurd rfl hp
  | _ => rfl

theorem OpEffect.seqDone_eq {i : Instr} {s t : State} (h : OpEffect i s t) (hr : i ≠ .reset) (hs : i ≠ .ssEos)
    (he : i ≠ .seEos) (ht : i ≠ .trEos) : t.seqDone = s.seqDone := by
  cases h with
  | reset => exact absurd rfl hr
  | startEos _ => exact absurd rfl hs
  | endEos _ => exact absurd rfl he
  | trailerEos _ => exact absurd rfl ht
  | _ => rfl

/-- Settles O27: `exec_effect` gives the arm that ran, and each law above is one clause. -/
theorem onlyNamedOperationsWrite : Obligations.OnlyNamedOperationsWrite := by
  unfold Obligations.OnlyNamedOperationsWrite
  intro i s t h hr
  have he : OpEffect i s t := exec_effect h
  exact ⟨he.phase_eq, he.table_eq hr, he.crc_flen_eq hr, fun _ => he.read_fbuf_eq hr, he.tdig_eq hr, he.tlen_eq hr,
    he.hq_eq hr, he.seqDone_eq hr⟩

end Sys2Proof.Machine

namespace Sys2Proof.Machine

/-! ### The invariants where INIT begins (10_state.md R28, R29) -/

/-- Settles O42: each value is written in `State.resetWith`, and the signals follow from them. -/
theorem resetStateValues : Obligations.ResetStateValues := by
  unfold Obligations.ResetStateValues
  intro p
  exact ⟨rfl, rfl, rfl, rfl, rfl, rfl, rfl, rfl, rfl, rfl, rfl⟩

/-- A block with nothing built, captured or queued meets the invariants: every item on a frame speaks of a later phase. -/
theorem inv_of_cleared {s : State} (hw : s.params.wf = true) (hf : s.faultMark = none) (hp : s.phase = .init)
    (hb : s.buildIdx = 0) (ht : s.table = []) (hm : s.fbuf = []) (hl : s.flen = 0) (hq : s.hq = [])
    (hd : s.seqDone = false) : Inv s where
  params := hw
  phase := by simp [hp]
  built h := absurd hp h
  building _ := by simp [hb]
  table i h := by simp [hb] at h
  tableWf := by simp [ht]
  fbufWf := by simp [hm]
  flen := by simp [hl]
  frame h := by simp [State.holdsFrame, hp] at h
  seeking h := by simp [hp] at h
  complete h := by simp [hp] at h
  waiting h := by simp [hp] at h
  capacity := by simp [hq]
  handoff := by simp [hq]
  initEmpty _ := hq
  finished := by simp [hd, hp]
  noFault := hf

/-- Settles O51. -/
theorem resetMeetsInvariants : Obligations.ResetMeetsInvariants := by
  unfold Obligations.ResetMeetsInvariants
  intro p hw
  exact inv_of_cleared hw rfl rfl rfl rfl rfl rfl rfl rfl

end Sys2Proof.Machine

namespace Sys2Proof.Machine

/-! ### What the invariants give -/

theorem payload_ok_congr {s t : State} {p : List Byte} (h : s.payload = .ok p) (hb : t.fbuf = s.fbuf)
    (hl : t.flen = s.flen) : t.payload = .ok p := (payload_congr hb hl).trans h

/-- The agents' queues are not state of the block (10_state.md R27), and no invariant speaks of them. -/
theorem Inv.with_agents {s : State} (h : Inv s) (u : List Symbol) (a : List Port) :
    Inv { s with upstream := u, agenda := a } := by
  have hpay : ({ s with upstream := u, agenda := a } : State).payload = s.payload := payload_congr rfl rfl
  exact { h with
    frame := by rw [hpay]; exact h.frame
    seeking := by rw [hpay]; exact h.seeking
    complete := by rw [hpay]; exact h.complete }

theorem Inv.dropTurn {s : State} (h : Inv s) : Inv s.dropTurn := h.with_agents _ _

theorem Inv.consumeSymbol {s : State} (h : Inv s) (p : Port) : Inv (s.consumeSymbol p) := h.with_agents _ _

/-- After INIT the table is built (70_reset_and_hazards.md R176). -/
theorem Inv.tableReady {s : State} (h : Inv s) (hp : s.phase ≠ .init) : s.tableReady := by
  have hb : s.buildIdx = 256 := h.built hp
  exact ⟨by simp [State.tableValid, hb], fun i => h.table i (by simpa [hb] using i.isLt)⟩

theorem Inv.crcUpdate_eq {s : State} (h : Inv s) (hp : s.phase ≠ .init) {c v : Word} {b : Byte}
    (hc : s.crcUpdate c b = .ok v) : v = crcUpdate c b := by
  rw [crcUpdate_of_ready (h.tableReady hp)] at hc
  exact (Except.ok.inj hc).symm

theorem Inv.observedFault_eq {s : State} (h : Inv s) : s.observedFault = none :=
  (observedFault_of_not_reserved h.phase).trans h.noFault

theorem Inv.maxFrame_pos {s : State} (h : Inv s) : 0 < s.params.maxFrame := by
  have hw := h.params
  simp only [Params.wf, Bool.and_eq_true, decide_eq_true_eq] at hw
  omega

theorem Inv.reads_payload {s : State} (h : Inv s) (hf : s.holdsFrame = true) : ∃ p, s.payload = .ok p := by
  obtain ⟨p, hp, -⟩ := h.frame hf
  exact ⟨p, hp⟩

/-! ### No operation faults (60_exceptions.md R164) -/

/-- An operation of the engine answers a next state when its effect, in its own phase, meets no fault. -/
theorem engineStep_total {s : State} {p : Phase} {effect : State → Except Fault State}
    (hr : s.phase.isReserved = false) (he : s.phase = p → ∃ t, effect { s with report := none } = .ok t) :
    ∃ t, s.engineStep p effect = .next t := by
  by_cases hp : s.phase = p
  · obtain ⟨t, ht⟩ := he hp
    exact ⟨t, engineStep_cases.mpr ⟨hr, .inl ⟨hp, ht⟩⟩⟩
  · exact ⟨_, engineStep_cases.mpr ⟨hr, .inr ⟨hp, rfl⟩⟩⟩

theorem Inv.emit_total {s : State} (h : Inv s) (hf : s.holdsFrame = true)
    (hq : s.hq.length < s.params.handoffDepth) : ∃ t, ({ s with report := none } : State).emit = .ok t := by
  obtain ⟨p, hp⟩ := h.reads_payload hf
  exact ⟨_, emit_ok.mpr ⟨p, payload_ok_congr hp rfl rfl, hq, rfl⟩⟩

theorem Inv.capture_total {s : State} (h : Inv s) (hp : s.phase = .seekEnd) (hm : s.flen ≠ s.params.maxFrame)
    (b : Byte) : ∃ t, ({ s with report := none } : State).capture b = .ok t := by
  have hready : ({ s with report := none } : State).tableReady := h.tableReady (by simp [hp])
  exact ⟨_, capture_ok.mpr ⟨_, crcUpdate_of_ready hready _ _, Nat.lt_of_le_of_ne h.flen hm, rfl⟩⟩

/-- No rule reaches a model fault from a good state. -/
theorem Inv.exec_total {s : State} (h : Inv s) (i : Instr) : ∃ t, exec i s = .next t := by
  cases i with
  | reset => exact ⟨_, rfl⟩
  | pop => exact execPop_total s
  | initBuild => unfold exec execInitBuild; exact engineStep_total h.phase fun _ => ⟨_, rfl⟩
  | ssEos => unfold exec execSsEos; exact engineStep_total h.phase fun _ => ⟨_, rfl⟩
  | ssDiscard b => unfold exec execSsDiscard; exact engineStep_total h.phase fun _ => ⟨_, rfl⟩
  | seEos => unfold exec execSeEos; exact engineStep_total h.phase fun _ => ⟨_, rfl⟩
  | trEos => unfold exec execTrEos; exact engineStep_total h.phase fun _ => ⟨_, rfl⟩
  | trByte b => unfold exec execTrByte; exact engineStep_total h.phase fun _ => ⟨_, rfl⟩
  | ssStart =>
    unfold exec execSsStart
    refine engineStep_total h.phase fun hp => ?_
    have hready : ({ s with report := none } : State).tableReady := h.tableReady (by simp [hp])
    exact ⟨_, except_bind_ok.mpr ⟨_, bufAppend_of_room _ h.maxFrame_pos,
      except_bind_ok.mpr ⟨_, crcUpdate_of_ready hready _ _, rfl⟩⟩⟩
  | seEnd =>
    unfold exec execSeEnd
    refine engineStep_total h.phase fun hp => ?_
    by_cases hm : s.flen = s.params.maxFrame
    · exact ⟨_, if_pos hm⟩
    · obtain ⟨t, ht⟩ := h.capture_total hp hm Config.endMark
      exact ⟨_, (if_neg hm).trans (except_bind_ok.mpr ⟨t, ht, rfl⟩)⟩
  | seAccum b =>
    unfold exec execSeAccum
    refine engineStep_total h.phase fun hp => ?_
    by_cases hm : s.flen = s.params.maxFrame
    · exact ⟨_, if_pos hm⟩
    · obtain ⟨t, ht⟩ := h.capture_total hp hm b
      exact ⟨t, (if_neg hm).trans ht⟩
  | trEol =>
    unfold exec execTrEol
    refine engineStep_total h.phase fun hp => ?_
    dsimp only
    split
    · exact ⟨_, rfl⟩
    · split
      · exact ⟨_, rfl⟩
      · split
        · next hq => exact h.emit_total (by simp [State.holdsFrame, hp]) hq
        · exact ⟨_, rfl⟩
  | emitPush =>
    unfold exec execEmitPush
    refine engineStep_total h.phase fun hp => ?_
    dsimp only
    split
    · next hq => exact h.emit_total (by simp [State.holdsFrame, hp]) hq
    · exact ⟨_, rfl⟩

end Sys2Proof.Machine

namespace Sys2Proof.Machine

/-! ### The general-byte operations never carry the named byte of their row (30_encoding.md R64) -/

/-- A decoded word belongs to a row of the opcode map, which made the operation. -/
theorem decodeWord_ok {w : OpWord} {i : Instr} (h : decodeWord w = .ok i) :
    ∃ r ∈ opcodeMap, w &&& r.mask = r.pattern ∧ r.make (opData w) = i := by
  unfold decodeWord at h
  cases hf : opcodeMap.find? (fun r => (w &&& r.mask) == r.pattern) with
  | none => simp [hf] at h
  | some r =>
    rw [hf] at h
    exact ⟨r, List.mem_of_find?_eq_some hf, by simpa using List.find?_some hf, Except.ok.inj h⟩

/-- The fixed bits and the data field make up the whole word of a general-byte row (30_encoding.md R60). -/
theorem eq_withData (w : OpWord) : w = withData (w &&& 0x3F00) (opData w) := by
  have hbyte : (opData w).setWidth 14 = w &&& 0x00FF := by
    apply BitVec.eq_of_toNat_eq
    have hmask : w.toNat &&& 255 = w.toNat % 256 := Nat.and_two_pow_sub_one_eq_mod w.toNat 8
    have hlt : w.toNat % 256 < 2 ^ 14 := by omega
    simpa [opData, hmask] using Nat.mod_eq_of_lt hlt
  unfold withData
  rw [hbyte, ← BitVec.and_or_distrib_left]
  exact (BitVec.and_allOnes (x := w)).symm

theorem eq_encode_seAccum {w : OpWord} {b : Byte} (h : decodeWord w = .ok (.seAccum b)) : w = encode (.seAccum b) := by
  obtain ⟨r, hr, hfix, hmake⟩ := decodeWord_ok h
  have hw := eq_withData w
  simp only [opcodeMap, List.mem_cons, List.not_mem_nil, or_false] at hr
  rcases hr with rfl | rfl | rfl | rfl | rfl | rfl | rfl | rfl | rfl | rfl | rfl | rfl | rfl <;> cases hmake
  rw [hfix] at hw
  exact hw

/-- SE_END's row stands before SE_ACCUM's and takes the terminator. -/
theorem seAccum_ne_endMark {w : OpWord} {b : Byte} (h : decodeWord w = .ok (.seAccum b)) : b ≠ Config.endMark := by
  rintro rfl
  rw [eq_encode_seAccum h] at h
  exact absurd h (by decide)

end Sys2Proof.Machine

namespace Sys2Proof.Machine

/-! ### Every operation keeps the invariants (10_state.md R29)

One law for each item of `Inv`, over the arms of `OpEffect`. -/

/-! #### INIT and the table -/

/-- What the items on INIT and the table say: INIT has built the entries below `build_idx`, is left with the last one,
and pushes nothing. -/
structure TableInv (s : State) : Prop where
  built : s.phase ≠ .init → s.buildIdx = 256
  building : s.phase = .init → s.buildIdx.toNat < 256
  entries : ∀ i : Byte, i.toNat < s.buildIdx.toNat → Memory.read s.table i.toNat = some (tableEntry i)
  wf : Memory.wf s.table
  initEmpty : s.phase = .init → s.hq = []

theorem Inv.tableInv {s : State} (h : Inv s) : TableInv s := ⟨h.built, h.building, h.table, h.tableWf, h.initEmpty⟩

/-- INIT_BUILD adds the entry at `build_idx` (40_crc_engine.md R82). -/
theorem TableInv.buildEntry {s : State} (h : TableInv s) (hp : s.phase = .init) : TableInv (buildEntry s) := by
  have hlt : s.buildIdx.toNat < 256 := h.building hp
  have hnext : (s.buildIdx + 1).toNat = s.buildIdx.toNat + 1 := by bv_omega
  have hidx : (s.buildIdx.setWidth 8 : Byte).toNat = s.buildIdx.toNat := by bv_omega
  refine ⟨fun hne => ?_, fun hinit => ?_, fun i hi => ?_, memory_wf_write _ _ h.wf, fun _ => h.initEmpty hp⟩
  · rw [buildEntry_phase, hp] at hne
    by_contra hnot
    exact hne (if_neg hnot)
  · rw [buildEntry_phase] at hinit
    have hnot : s.buildIdx + 1 ≠ 256 := fun hlast => by rw [if_pos hlast] at hinit; cases hinit
    have hval : (s.buildIdx + 1).toNat ≠ 256 := fun hv => hnot (BitVec.eq_of_toNat_eq hv)
    rw [buildEntry_buildIdx]
    omega
  · rw [buildEntry_buildIdx, hnext] at hi
    rw [buildEntry_table, memory_read_write]
    split
    · next heq => rw [BitVec.eq_of_toNat_eq heq]
    · next hne => exact h.entries i (by omega)

/-- Outside INIT nothing but the entries matters, and they stay. -/
theorem TableInv.of_not_init {s t : State} (h : TableInv s) (hs : s.phase ≠ .init) (ht : t.phase ≠ .init)
    (hb : t.buildIdx = s.buildIdx) (htable : t.table = s.table) : TableInv t where
  built _ := hb.trans (h.built hs)
  building hp := absurd hp ht
  entries := by rw [hb, htable]; exact h.entries
  wf := htable ▸ h.wf
  initEmpty hp := absurd hp ht

theorem OpEffect.tableInv {i : Instr} {s t : State} (h : OpEffect i s t) (hs : TableInv s) : TableInv t := by
  cases h with
  | reset => exact ⟨fun hp => absurd rfl hp, fun _ => by simp, by simp, memory_wf_nil, fun _ => rfl⟩
  | build hphase => exact TableInv.buildEntry ⟨hs.built, hs.building, hs.entries, hs.wf, hs.initEmpty⟩ hphase
  | idle _ | popEmpty _ => exact ⟨hs.built, hs.building, hs.entries, hs.wf, hs.initEmpty⟩
  | pop hq =>
    exact ⟨hs.built, hs.building, hs.entries, hs.wf, fun hp => absurd (hq.symm.trans (hs.initEmpty hp)) (by simp)⟩
  | emit hp _ _ | start hp _ _ | startEos hp | accum hp _ _ | accumOverflow hp _ | terminate hp _ _
  | terminateOverflow hp _ | endEos hp | wrongLength hp _ | wrongDigits hp _ _ | verified hp _ _ _ _
  | verifiedFull hp _ _ _ | trailerEos hp | trailerByte hp =>
    exact hs.of_not_init (by simp [hp]) (by simp [hp]) rfl rfl

/-! #### The frame -/

/-- `p` is a captured frame of which `crc` is the checksum (10_state.md R29, item 3). -/
structure State.Captured (s : State) (p : List Byte) : Prop where
  payload : s.payload = .ok p
  starts : p.head? = some Config.startMark
  crc : s.crc = checksum p

theorem Inv.captured {s : State} (h : Inv s) (hf : s.holdsFrame = true) : ∃ p, s.Captured p := by
  obtain ⟨p, hpay, hstart, hcrc⟩ := h.frame hf
  exact ⟨p, hpay, hstart, hcrc⟩

theorem State.Captured.unique {s : State} {p q : List Byte} (h : s.Captured p) (hq : s.payload = .ok q) : q = p :=
  Except.ok.inj (hq.symm.trans h.payload)

theorem State.Captured.congr {s t : State} {p : List Byte} (h : s.Captured p) (hb : t.fbuf = s.fbuf)
    (hl : t.flen = s.flen) (hc : t.crc = s.crc) : t.Captured p :=
  ⟨payload_ok_congr h.payload hb hl, h.starts, hc.trans h.crc⟩

/-- One more byte (41_frame_extractor.md R105, R106). -/
theorem State.Captured.snoc {s t : State} {p : List Byte} {b : Byte} (h : s.Captured p)
    (hb : t.fbuf = Memory.write s.fbuf s.flen b) (hl : t.flen = s.flen + 1) (hc : t.crc = Machine.crcUpdate s.crc b) :
    t.Captured (p ++ [b]) :=
  ⟨payload_append h.payload hb hl, by simp [h.starts], by rw [hc, h.crc, checksum_snoc]⟩

/-- The marker alone (41_frame_extractor.md R102). -/
theorem captured_startMark {s t : State} (hb : t.fbuf = Memory.write s.fbuf 0 Config.startMark) (hl : t.flen = 1)
    (hc : t.crc = crcUpdate Config.crcInit Config.startMark) : t.Captured [Config.startMark] :=
  ⟨payload_append (s := s.bufClear) (p := []) rfl hb hl, rfl, hc⟩

/-- The terminator makes a legal payload of a frame that has none yet and leaves room for it. -/
theorem legalPayload_snoc {m : Nat} {p : List Byte} (hs : p.head? = some Config.startMark)
    (he : Config.endMark ∉ p) (hl : p.length < m) : LegalPayload m (p ++ [Config.endMark]) := by
  obtain _ | ⟨a, q⟩ := p
  · simp at hs
  · exact
      { atLeastTwo := by simp
        fits := by simpa using hl
        starts := by simpa using hs
        ends := List.getLast?_concat
        noEarlierEnd := by simpa using fun hq => he (List.mem_cons_of_mem a hq) }

theorem OpEffect.fbuf_wf {i : Instr} {s t : State} (h : OpEffect i s t) (hs : Memory.wf s.fbuf) : Memory.wf t.fbuf := by
  cases h with
  | reset => exact memory_wf_nil
  | start _ _ _ | accum _ _ _ | terminate _ _ _ => exact memory_wf_write _ _ hs
  | _ => exact hs

theorem OpEffect.flen_le {i : Instr} {s t : State} (h : OpEffect i s t) (hs : s.flen ≤ s.params.maxFrame) :
    t.flen ≤ t.params.maxFrame := by
  cases h with
  | reset => exact Nat.zero_le _
  | start _ hm _ | accum _ hm _ | terminate _ hm _ => exact hm
  | _ => exact hs

theorem OpEffect.captured {i : Instr} {s t : State} (h : OpEffect i s t) (hs : Inv s) (hf : t.holdsFrame = true) :
    ∃ p, t.Captured p := by
  cases h with
  | idle _ | pop _ | popEmpty _ =>
    obtain ⟨p, hp⟩ := hs.captured hf
    exact ⟨p, hp.congr rfl rfl rfl⟩
  | verifiedFull hphase _ _ _ | trailerByte hphase =>
    obtain ⟨p, hp⟩ := hs.captured (by simp [State.holdsFrame, hphase])
    exact ⟨p, hp.congr rfl rfl rfl⟩
  | start hphase _ hc => exact ⟨_, captured_startMark rfl rfl (hs.crcUpdate_eq (by simp [hphase]) hc)⟩
  | accum hphase _ hc | terminate hphase _ hc =>
    obtain ⟨p, hp⟩ := hs.captured (by simp [State.holdsFrame, hphase])
    exact ⟨_, hp.snoc rfl rfl (hs.crcUpdate_eq (by simp [hphase]) hc)⟩
  | build hphase =>
    simp only [State.holdsFrame, buildEntry_phase, hphase] at hf
    split at hf <;> simp at hf
  | _ => simp [State.holdsFrame] at hf

/-- Item 4: SE_ACCUM captures no terminator. -/
theorem OpEffect.seeking {i : Instr} {s t : State} (h : OpEffect i s t) (hs : Inv s)
    (hi : i ≠ .seAccum Config.endMark) (hp : t.phase = .seekEnd) {q : List Byte} (hq : t.payload = .ok q) :
    Config.endMark ∉ q := by
  cases h with
  | idle _ | pop _ | popEmpty _ => exact hs.seeking hp q (payload_ok_congr hq rfl rfl)
  | start hphase _ hc =>
    rw [(captured_startMark rfl rfl (hs.crcUpdate_eq (by simp [hphase]) hc)).unique hq]
    decide
  | @accum _ b _ hphase _ hc =>
    obtain ⟨p, hp⟩ := hs.captured (by simp [State.holdsFrame, hphase])
    have hb : Config.endMark ≠ b := fun heq => hi (by rw [heq])
    rw [(hp.snoc rfl rfl (hs.crcUpdate_eq (by simp [hphase]) hc)).unique hq]
    simpa [hb] using hs.seeking hphase p hp.payload
  | build hphase =>
    rw [buildEntry_phase, hphase] at hp
    split at hp <;> cases hp
  | trailerByte hphase => exact absurd (hphase.symm.trans hp) (by decide)
  | reset | emit _ _ _ | startEos _ | accumOverflow _ _ | terminate _ _ _ | terminateOverflow _ _ | endEos _
  | wrongLength _ _ | wrongDigits _ _ _ | verified _ _ _ _ _ | verifiedFull _ _ _ _ | trailerEos _ => cases hp

/-- Item 5: SE_END completes a legal payload, and the trailer leaves it alone. -/
theorem OpEffect.complete {i : Instr} {s t : State} (h : OpEffect i s t) (hs : Inv s)
    (hp : t.phase = .trailer ∨ t.phase = .emitWait) {q : List Byte} (hq : t.payload = .ok q) :
    LegalPayload t.params.maxFrame q := by
  cases h with
  | idle _ | pop _ | popEmpty _ => exact hs.complete hp q (payload_ok_congr hq rfl rfl)
  | verifiedFull hphase _ _ _ | trailerByte hphase =>
    exact hs.complete (.inl hphase) q (payload_ok_congr hq rfl rfl)
  | terminate hphase hm hc =>
    obtain ⟨p, hp⟩ := hs.captured (by simp [State.holdsFrame, hphase])
    rw [(hp.snoc rfl rfl (hs.crcUpdate_eq (by simp [hphase]) hc)).unique hq]
    exact legalPayload_snoc hp.starts (hs.seeking hphase p hp.payload) (by rwa [payload_length hp.payload])
  | build hphase =>
    rw [buildEntry_phase, hphase] at hp
    split at hp <;> simp at hp
  | accum hphase _ _ => simp [hphase] at hp
  | reset | emit _ _ _ | start _ _ _ | startEos _ | accumOverflow _ _ | terminateOverflow _ _ | endEos _
  | wrongLength _ _ | wrongDigits _ _ _ | verified _ _ _ _ _ | trailerEos _ => simp at hp

/-! #### EMIT_WAIT and the hand-off -/

/-- EMIT_WAIT is held as it is, or entered by the last arm of TR_EOL (41_frame_extractor.md R111). -/
theorem OpEffect.emitWait_cases {i : Instr} {s t : State} (h : OpEffect i s t) (ht : t.phase = .emitWait) :
    (s.phase = .emitWait ∧ t.tlen = s.tlen ∧ t.tdig = s.tdig ∧ t.crc = s.crc) ∨
      (i = .trEol ∧ s.tlen = 5 ∧ digitsMatch s.tdig s.crc = true ∧ ¬ s.hq.length < s.params.handoffDepth ∧
        t = { s with report := none, phase := .emitWait }) := by
  cases h with
  | verifiedFull _ hl hd hq => exact .inr ⟨rfl, hl, hd, hq, rfl⟩
  | idle _ | pop _ | popEmpty _ => exact .inl ⟨ht, rfl, rfl, rfl⟩
  | accum hphase _ _ | trailerByte hphase => exact absurd (hphase.symm.trans ht) (by decide)
  | build hphase =>
    rw [buildEntry_phase, hphase] at ht
    split at ht <;> cases ht
  | reset | emit _ _ _ | start _ _ _ | startEos _ | accumOverflow _ _ | terminate _ _ _ | terminateOverflow _ _
  | endEos _ | wrongLength _ _ | wrongDigits _ _ _ | verified _ _ _ _ _ | trailerEos _ => cases ht

/-- Settles O34: with the capacity of item 7, no room means a full hand-off. -/
theorem emitWaitEnteredOnlyWhenFull : Obligations.EmitWaitEnteredOnlyWhenFull := by
  unfold Obligations.EmitWaitEnteredOnlyWhenFull
  intro i s t hs h hphase ht
  obtain ⟨hwait, -⟩ | ⟨rfl, -, -, hroom, rfl⟩ := (exec_effect h).emitWait_cases ht
  · exact absurd hwait hphase
  · have hfull : s.hqFull = true := by
      simpa [State.hqFull] using Nat.le_antisymm hs.capacity (Nat.le_of_not_lt hroom)
    exact ⟨rfl, hfull, hfull⟩

/-- Equal digits are the four digits of the checksum (40_crc_engine.md R87). -/
theorem eq_hex4_of_digitsMatch {d : Vector Byte 4} {v : Word} (h : digitsMatch d v = true) : d = hex4 v := by
  simp only [digitsMatch, Bool.and_eq_true, beq_iff_eq] at h
  obtain ⟨⟨⟨h0, h1⟩, h2⟩, h3⟩ := h
  ext i hi
  interval_cases i <;> simp_all

/-- Item 6. -/
theorem OpEffect.waiting {i : Instr} {s t : State} (h : OpEffect i s t) (hs : Inv s) (ht : t.phase = .emitWait) :
    t.tlen = 5 ∧ t.tdig = hex4 t.crc := by
  obtain ⟨hp, htlen, htdig, hcrc⟩ | ⟨-, hl, hd, -, rfl⟩ := h.emitWait_cases ht
  · rw [htlen, htdig, hcrc]
    exact hs.waiting hp
  · exact ⟨hl, eq_hex4_of_digitsMatch hd⟩

/-- Item 7: a payload enters where there is room, and is legal. -/
theorem OpEffect.handoff {i : Instr} {s t : State} (h : OpEffect i s t) (hs : Inv s) :
    t.hq.length ≤ t.params.handoffDepth ∧ ∀ p ∈ t.hq, LegalPayload t.params.maxFrame p := by
  cases h with
  | reset => simp
  | @pop _ p rest hq =>
    have hlen := hs.capacity
    have hlegal := hs.handoff
    rw [hq] at hlen hlegal
    exact ⟨Nat.le_of_succ_le hlen, fun q hmem => hlegal q (List.mem_cons_of_mem p hmem)⟩
  | @emit _ p hphase hroom hpay | @verified _ p hphase _ _ hroom hpay =>
    have hlegal : LegalPayload s.params.maxFrame p := hs.complete (by simp [hphase]) p hpay
    refine ⟨by simpa using hroom, List.forall_mem_append.mpr ⟨hs.handoff, ?_⟩⟩
    simpa using hlegal
  | _ => exact ⟨hs.capacity, hs.handoff⟩

/-! #### The phase, the end of the sequence and the fault mark -/

@[simp] theorem buildEntry_seqDone (s : State) : (buildEntry s).seqDone = s.seqDone := rfl

/-- Item 1: no operation enters a reserved phase. -/
theorem OpEffect.not_reserved {i : Instr} {s t : State} (h : OpEffect i s t) (hs : s.phase.isReserved = false) :
    t.phase.isReserved = false := by
  cases h with
  | build hphase =>
    rw [buildEntry_phase, hphase]
    split <;> rfl
  | idle _ | pop _ | popEmpty _ | accum _ _ _ | trailerByte _ => exact hs
  | _ => rfl

theorem Inv.seqDone_eq_false {s : State} (h : Inv s) (hp : s.phase ≠ .done) : s.seqDone = false :=
  Bool.eq_false_iff.mpr (h.finished.not.mpr hp)

/-- Item 8. -/
theorem OpEffect.finished {i : Instr} {s t : State} (h : OpEffect i s t) (hs : Inv s) :
    t.seqDone = true ↔ t.phase = .done := by
  cases h with
  | idle _ | pop _ | popEmpty _ | accum _ _ _ | trailerByte _ => exact hs.finished
  | reset | startEos _ | endEos _ | trailerEos _ => simp
  | build hphase =>
    rw [buildEntry_seqDone, buildEntry_phase, hs.seqDone_eq_false (by simp [hphase]), hphase]
    split <;> simp
  | emit hphase _ _ | start hphase _ _ | accumOverflow hphase _ | terminate hphase _ _ | terminateOverflow hphase _
  | wrongLength hphase _ | wrongDigits hphase _ _ | verified hphase _ _ _ _ | verifiedFull hphase _ _ _ =>
    simp [hs.seqDone_eq_false (by simp [hphase])]

theorem OpEffect.noFault {i : Instr} {s t : State} (h : OpEffect i s t) (hs : Inv s) : t.faultMark = none := by
  cases h with
  | reset | pop _ | popEmpty _ => exact hs.observedFault_eq
  | _ => exact hs.noFault

/-! #### All items together -/

/-- Every operation keeps the invariants, but for SE_ACCUM of the terminator, which no word selects
(30_encoding.md R64). -/
theorem OpEffect.keeps_inv {i : Instr} {s t : State} (h : OpEffect i s t) (hs : Inv s)
    (hi : i ≠ .seAccum Config.endMark) : Inv t := by
  obtain ⟨hbuilt, hbuilding, hentries, hwf, hempty⟩ := h.tableInv hs.tableInv
  obtain ⟨hcapacity, hlegal⟩ := h.handoff hs
  exact
    { params := by rw [h.params_eq]; exact hs.params
      phase := h.not_reserved hs.phase
      built := hbuilt
      building := hbuilding
      table := hentries
      tableWf := hwf
      fbufWf := h.fbuf_wf hs.fbufWf
      flen := h.flen_le hs.flen
      frame := fun hf => (h.captured hs hf).imp fun _ hp => ⟨hp.payload, hp.starts, hp.crc⟩
      seeking := fun hp _ hq => h.seeking hs hi hp hq
      complete := fun hp _ hq => h.complete hs hp hq
      waiting := h.waiting hs
      capacity := hcapacity
      handoff := hlegal
      initEmpty := hempty
      finished := h.finished hs
      noFault := h.noFault hs }

theorem Inv.begin {s : State} (h : Inv s) : Inv s.begin := by
  rw [begin_eq h.phase]
  exact (OpEffect.idle (i := .pop) h.phase).keeps_inv h (by simp)

/-- Settles O52: a step passes, or runs an operation that its word selects; from a good state that operation meets no
fault, and keeps each item. -/
theorem everyStepKeepsInvariants : Obligations.EveryStepKeepsInvariants := by
  unfold Obligations.EveryStepKeepsInvariants
  intro s t hs h
  have hbefore : Inv (s.dropTurn.consumeSymbol s.nextPort) := hs.dropTurn.consumeSymbol _
  obtain rfl | ⟨i, hword, he⟩ | ⟨i, f, -, hfault, -⟩ := step_effect h
  · exact hs.dropTurn.begin
  · exact he.keeps_inv hbefore fun hi => seAccum_ne_endMark (hi ▸ hword) rfl
  · obtain ⟨u, hu⟩ := hbefore.exec_total i
    rw [hu] at hfault
    cases hfault

end Sys2Proof.Machine

namespace Sys2Proof.Machine

/-! ### The canonical memories (20_memory.md R41, R42; log entry 7) -/

/-- A memory in canonical form reads at an index the one value it lists there. -/
theorem memory_read_eq_some {α : Type} {m : List (Nat × α)} (h : Memory.wf m) {k : Nat} {v : α} :
    Memory.read m k = some v ↔ (k, v) ∈ m := by
  induction m with
  | nil => simp
  | cons e m ih =>
    obtain ⟨a, u⟩ := e
    obtain ⟨hrise, htail⟩ := List.pairwise_cons.mp h
    by_cases hk : a = k
    · subst hk
      have hnot : (a, v) ∉ m := fun hmem => Nat.lt_irrefl a (hrise _ hmem)
      simp [Memory.read, hnot, eq_comm]
    · simp [Memory.read, hk, Ne.symm hk, ih htail]

/-- Reads at every index determine a canonical memory: they fix its entries, and a strictly rising list is fixed by its
entries. -/
theorem memory_ext {α : Type} {m m' : List (Nat × α)} (h : Memory.wf m) (h' : Memory.wf m')
    (hread : ∀ k, Memory.read m k = Memory.read m' k) : m = m' := by
  have : Std.Irrefl fun x y : Nat × α => x.1 < y.1 := ⟨fun _ => Nat.lt_irrefl _⟩
  have : Std.Antisymm fun x y : Nat × α => x.1 < y.1 := ⟨fun _ _ hxy hyx => absurd hyx (Nat.lt_asymm hxy)⟩
  exact h.eq_of_mem_iff h' fun ⟨k, v⟩ => by rw [← memory_read_eq_some h, hread, memory_read_eq_some h']

/-- Settles O54. -/
theorem canonicalMemoriesReadAlikeAreEqual : Obligations.CanonicalMemoriesReadAlikeAreEqual := by
  unfold Obligations.CanonicalMemoriesReadAlikeAreEqual
  exact fun _ _ => memory_ext

end Sys2Proof.Machine

namespace Sys2Proof.Machine

/-! ### A captured byte (20_memory.md R42, R44)

`OpEffect.idle` does not say in which phase an operation is idle, so the capture is read off the inversion of each
of its two operations. -/

/-- In SEEK_END with room in the buffer, both operations on a data byte append it (41_frame_extractor.md R105, R106). -/
theorem exec_appends_byte {i : Instr} {s t : State} {b : Byte}
    (hi : i = .seAccum b ∨ (i = .seEnd ∧ b = Config.endMark)) (hp : s.phase = .seekEnd)
    (hroom : s.flen < s.params.maxFrame) (h : exec i s = .next t) :
    t.fbuf = Memory.write s.fbuf s.flen b ∧ t.flen = s.flen + 1 := by
  obtain rfl | ⟨rfl, rfl⟩ := hi
  · obtain ⟨-, ⟨-, hfull, -⟩ | ⟨-, -, _, -, rfl⟩ | ⟨hother, -⟩⟩ := execSeAccum_next.mp h
    · exact absurd hfull (Nat.ne_of_lt hroom)
    · exact ⟨rfl, rfl⟩
    · exact absurd hp hother
  · obtain ⟨-, ⟨-, hfull, -⟩ | ⟨-, -, _, -, rfl⟩ | ⟨hother, -⟩⟩ := execSeEnd_next.mp h
    · exact absurd hfull (Nat.ne_of_lt hroom)
    · exact ⟨rfl, rfl⟩
    · exact absurd hp hother

/-- Settles O26: the byte is written at the old `flen`, and each clause is a law of that write. -/
theorem captureExtendsPayload : Obligations.CaptureExtendsPayload := by
  unfold Obligations.CaptureExtendsPayload
  intro s t i b hi hp hroom h
  obtain ⟨hbuf, hlen⟩ := exec_appends_byte hi hp hroom h
  refine ⟨fun p hpay => payload_append hpay hbuf hlen, ?_, fun k hk => ?_⟩
  · rw [hbuf, memory_read_write_same]
  · rw [hbuf, memory_read_write_other _ _ hk.symm]

end Sys2Proof.Machine

namespace Sys2Proof.Machine

/-! ### The hand-off as a queue (20_memory.md R43, R55) -/

/-- The deliveries followed by the hand-off: POP moves the border between them, and only a push makes them longer. -/
theorem OpEffect.delivered_append_hq {i : Instr} {s t : State} (h : OpEffect i s t) (hr : i ≠ .reset) :
    t.delivered ++ t.hq = s.delivered ++ s.hq ∨
      ∃ p, s.payload = .ok p ∧ t.delivered ++ t.hq = s.delivered ++ s.hq ++ [p] ∧ (i = .trEol ∨ i = .emitPush) := by
  cases h with
  | reset => exact absurd rfl hr
  | pop hq => exact .inl (by simp [hq])
  | @emit _ p _ _ hpay => exact .inr ⟨p, hpay, by simp, .inr rfl⟩
  | @verified _ p _ _ _ _ hpay => exact .inr ⟨p, hpay, by simp, .inl rfl⟩
  | _ => exact .inl rfl

/-- Settles O32. -/
theorem handoffIsFifo : Obligations.HandoffIsFifo := by
  unfold Obligations.HandoffIsFifo
  exact fun _ _ _ h => (exec_effect h).delivered_append_hq

end Sys2Proof.Machine

namespace Sys2Proof.Machine

/-! ### A read of the table before it is valid (20_memory.md R41, 60_exceptions.md R164) -/

theorem tableRead_of_unbuilt {s : State} (h : s.tableValid = false) (i : Byte) :
    s.tableRead i = .error .tableNotBuilt := by
  simp [State.tableRead, h]

theorem crcUpdate_of_unbuilt {s : State} (h : s.tableValid = false) (c : Word) (b : Byte) :
    s.crcUpdate c b = .error .tableNotBuilt := by
  simp [State.crcUpdate, tableRead_of_unbuilt h]

/-- The checksum is folded before the byte is appended, so the table's fault is the one named (log entry 12). -/
theorem capture_of_unbuilt {s : State} (h : s.tableValid = false) (b : Byte) :
    s.capture b = .error .tableNotBuilt := by
  simp [State.capture, crcUpdate_of_unbuilt h]

theorem execSsStart_of_unbuilt {s : State} (h : s.tableValid = false) (hp : s.phase = .seekStart)
    (hm : 0 < s.params.maxFrame) : execSsStart s = .fault .tableNotBuilt := by
  have hquiet : ({ s with report := none } : State).tableValid = false := h
  rw [execSsStart, engineStep_enabled hp rfl, bufAppend_of_room _ hm, except_ok_bind, crcUpdate_of_unbuilt hquiet,
    except_error_bind, finish_error]

theorem execSeEnd_of_unbuilt {s : State} (h : s.tableValid = false) (hp : s.phase = .seekEnd)
    (hm : s.flen ≠ s.params.maxFrame) : execSeEnd s = .fault .tableNotBuilt := by
  have hquiet : ({ s with report := none } : State).tableValid = false := h
  rw [execSeEnd, engineStep_enabled hp rfl, if_neg hm, capture_of_unbuilt hquiet, except_error_bind, finish_error]

theorem execSeAccum_of_unbuilt {s : State} (h : s.tableValid = false) (hp : s.phase = .seekEnd)
    (hm : s.flen ≠ s.params.maxFrame) (b : Byte) : execSeAccum b s = .fault .tableNotBuilt := by
  have hquiet : ({ s with report := none } : State).tableValid = false := h
  rw [execSeAccum, engineStep_enabled hp rfl, if_neg hm, capture_of_unbuilt hquiet, finish_error]

/-- Settles O45. -/
theorem unbuiltTableReadFaults : Obligations.UnbuiltTableReadFaults := by
  unfold Obligations.UnbuiltTableReadFaults
  intro s h
  exact ⟨tableRead_of_unbuilt h, execSsStart_of_unbuilt h,
    fun hp hm => ⟨execSeEnd_of_unbuilt h hp hm, execSeAccum_of_unbuilt h hp hm⟩⟩

end Sys2Proof.Machine

namespace Sys2Proof

/-! ### The operation word field by field (30_encoding.md R60, R63) -/

/-- The 9-bit symbol `{eos, data}` (30_encoding.md R63). -/
def symbolOf (e : Bool) (d : Byte) : Symbol := BitVec.ofBool e ++ d

/-- The operation word `{port, phase, symbol}` (30_encoding.md R60). -/
def opWordOf (p : Port) (f : Phase) (x : Symbol) : OpWord := p.code ++ f.code ++ x

@[simp] theorem portOfCode_code (p : Port) : Port.ofCode p.code = p := by cases p <;> rfl

@[simp] theorem phaseOfCode_code (f : Phase) : Phase.ofCode f.code = f := by cases f <;> rfl

theorem portCode_ofCode : ∀ c : BitVec 2, (Port.ofCode c).code = c := by decide

theorem phaseCode_ofCode : ∀ c : BitVec 3, (Phase.ofCode c).code = c := by decide

@[simp] theorem opPort_opWordOf (p : Port) (f : Phase) (x : Symbol) : opPort (opWordOf p f x) = p := by
  have hread : (opWordOf p f x).extractLsb' 12 2 = p.code :=
    (BitVec.extractLsb'_append_eq_of_le (by decide)).trans BitVec.extractLsb'_append_eq_left
  rw [opPort, hread, portOfCode_code]

@[simp] theorem opPhase_opWordOf (p : Port) (f : Phase) (x : Symbol) : opPhase (opWordOf p f x) = f := by
  have hread : (opWordOf p f x).extractLsb' 9 3 = f.code :=
    (BitVec.extractLsb'_append_eq_of_le (by decide)).trans BitVec.extractLsb'_append_eq_right
  rw [opPhase, hread, phaseOfCode_code]

@[simp] theorem opSymbol_opWordOf (p : Port) (f : Phase) (x : Symbol) : opSymbol (opWordOf p f x) = x :=
  BitVec.extractLsb'_append_eq_right

@[simp] theorem opData_opWordOf (p : Port) (f : Phase) (e : Bool) (d : Byte) :
    opData (opWordOf p f (symbolOf e d)) = d :=
  (BitVec.extractLsb'_append_eq_of_add_le (by decide)).trans BitVec.extractLsb'_append_eq_right

@[simp] theorem getElem_symbolOf (e : Bool) (d : Byte) : (symbolOf e d)[8] = e :=
  (BitVec.getElem_append (by decide)).trans (by simp)

@[simp] theorem getElem_opWordOf (p : Port) (f : Phase) (x : Symbol) : (opWordOf p f x)[8] = x[8] :=
  (BitVec.getElem_append (by decide)).trans (by rfl)

theorem opWordOf_inj {p p' : Port} {f f' : Phase} {x x' : Symbol} :
    opWordOf p f x = opWordOf p' f' x' ↔ p = p' ∧ f = f' ∧ x = x' := by
  refine ⟨fun h => ⟨?_, ?_, ?_⟩, fun ⟨hp, hf, hx⟩ => by rw [hp, hf, hx]⟩
  · simpa using congrArg opPort h
  · simpa using congrArg opPhase h
  · simpa using congrArg opSymbol h

theorem symbolOf_inj {e e' : Bool} {d d' : Byte} : symbolOf e d = symbolOf e' d' ↔ e = e' ∧ d = d' := by
  refine ⟨fun h => ⟨?_, ?_⟩, fun ⟨he, hd⟩ => by rw [he, hd]⟩
  · simpa using congrArg (fun x : Symbol => x[8]) h
  · simpa using congrArg (fun x => opData (opWordOf .input .init x)) h

/-- Every symbol is its end-of-stream bit and its byte. -/
theorem exists_symbolOf (x : Symbol) : ∃ e d, x = symbolOf e d := by
  have hbit : ∀ c : BitVec 1, c = BitVec.ofBool (c == 1#1) := by decide
  refine ⟨x.extractLsb' 8 1 == 1#1, x.extractLsb' 0 8, ?_⟩
  rw [symbolOf, ← hbit, BitVec.extractLsb'_append_extractLsb'_eq_extractLsb' (by rfl)]
  exact BitVec.extractLsb'_eq_self.symm

/-- Every word is its four fields. -/
theorem exists_opWordOf (w : OpWord) : ∃ p f e d, w = opWordOf p f (symbolOf e d) := by
  obtain ⟨e, d, hx⟩ := exists_symbolOf (opSymbol w)
  have hhigh : w.extractLsb' 12 2 ++ w.extractLsb' 9 3 = w.extractLsb' 9 5 :=
    BitVec.extractLsb'_append_extractLsb'_eq_extractLsb' rfl
  refine ⟨opPort w, opPhase w, e, d, ?_⟩
  rw [← hx, opWordOf, opPort, opPhase, opSymbol, portCode_ofCode, phaseCode_ofCode, hhigh,
    BitVec.extractLsb'_append_extractLsb'_eq_extractLsb' (by rfl)]
  exact BitVec.extractLsb'_eq_self.symm

/-! ### The opcode map field by field (30_encoding.md R65)

The map has four masks: the port; the port and the phase; these and the end-of-stream bit; and the whole word. -/

theorem opWordOf_and (p : Port) (f : Phase) (x : Symbol) (mp : BitVec 2) (mf : BitVec 3) (mx : Symbol) :
    opWordOf p f x &&& (mp ++ mf ++ mx) = (p.code &&& mp) ++ (f.code &&& mf) ++ (x &&& mx) := by
  rw [opWordOf, BitVec.and_append, BitVec.and_append]

theorem symbolOf_and_eosMask (e : Bool) (d : Byte) : symbolOf e d &&& (1#1 ++ 0#8) = symbolOf e 0 := by
  rw [symbolOf, BitVec.and_append, BitVec.and_zero]
  cases e <;> rfl

theorem opWordOf_and_portMask (p : Port) (f : Phase) (x : Symbol) :
    opWordOf p f x &&& 0x3000 = opWordOf p .init (symbolOf false 0) := by
  refine (opWordOf_and p f x (BitVec.allOnes 2) 0#3 0#9).trans ?_
  rw [BitVec.and_allOnes, BitVec.and_zero, BitVec.and_zero]
  rfl

theorem opWordOf_and_phaseMask (p : Port) (f : Phase) (x : Symbol) :
    opWordOf p f x &&& 0x3E00 = opWordOf p f (symbolOf false 0) := by
  refine (opWordOf_and p f x (BitVec.allOnes 2) (BitVec.allOnes 3) 0#9).trans ?_
  rw [BitVec.and_allOnes, BitVec.and_allOnes, BitVec.and_zero]
  rfl

theorem opWordOf_and_eosMask (p : Port) (f : Phase) (e : Bool) (d : Byte) :
    opWordOf p f (symbolOf e d) &&& 0x3F00 = opWordOf p f (symbolOf e 0) := by
  refine (opWordOf_and p f _ (BitVec.allOnes 2) (BitVec.allOnes 3) (1#1 ++ 0#8)).trans ?_
  rw [BitVec.and_allOnes, BitVec.and_allOnes, symbolOf_and_eosMask]
  rfl

theorem opWordOf_and_wordMask (p : Port) (f : Phase) (x : Symbol) : opWordOf p f x &&& 0x3FFF = opWordOf p f x :=
  BitVec.and_allOnes

/-- The map's patterns in their columns port, phase, eos and data. -/
theorem opcodeMap_fields :
    opcodeMap =
      [ ⟨opWordOf .reset .init (symbolOf false 0), 0x3000, fun _ => .reset⟩,
        ⟨opWordOf .pop .init (symbolOf false 0), 0x3000, fun _ => .pop⟩,
        ⟨opWordOf .internal .init (symbolOf false 0), 0x3E00, fun _ => .initBuild⟩,
        ⟨opWordOf .internal .emitWait (symbolOf false 0), 0x3E00, fun _ => .emitPush⟩,
        ⟨opWordOf .input .seekStart (symbolOf false 0x2F), 0x3FFF, fun _ => .ssStart⟩,
        ⟨opWordOf .input .seekStart (symbolOf true 0), 0x3F00, fun _ => .ssEos⟩,
        ⟨opWordOf .input .seekStart (symbolOf false 0), 0x3F00, fun b => .ssDiscard b⟩,
        ⟨opWordOf .input .seekEnd (symbolOf false 0x21), 0x3FFF, fun _ => .seEnd⟩,
        ⟨opWordOf .input .seekEnd (symbolOf true 0), 0x3F00, fun _ => .seEos⟩,
        ⟨opWordOf .input .seekEnd (symbolOf false 0), 0x3F00, fun b => .seAccum b⟩,
        ⟨opWordOf .input .trailer (symbolOf false 0x0A), 0x3FFF, fun _ => .trEol⟩,
        ⟨opWordOf .input .trailer (symbolOf true 0), 0x3F00, fun _ => .trEos⟩,
        ⟨opWordOf .input .trailer (symbolOf false 0), 0x3F00, fun b => .trByte b⟩ ] := rfl

theorem opWordOf_beq (p p' : Port) (f f' : Phase) (e e' : Bool) (d d' : Byte) :
    (opWordOf p f (symbolOf e d) == opWordOf p' f' (symbolOf e' d')) = decide (p = p' ∧ f = f' ∧ e = e' ∧ d = d') := by
  simp only [Bool.beq_eq_decide_eq, opWordOf_inj, symbolOf_inj]

/-- The 13 rows tried in order are the reading of the fields by cases (30_encoding.md R64). Only the three phases that
take an input look at the end-of-stream bit and the byte. -/
theorem decodeWord_opWordOf (p : Port) (f : Phase) (e : Bool) (d : Byte) :
    decodeWord (opWordOf p f (symbolOf e d)) = decodeByFields (opWordOf p f (symbolOf e d)) := by
  simp only [decodeWord, opcodeMap_fields, List.find?_cons, List.find?_nil, opWordOf_and_portMask,
    opWordOf_and_phaseMask, opWordOf_and_eosMask, opWordOf_and_wordMask, opWordOf_beq,
    decodeByFields, opPort_opWordOf, opPhase_opWordOf, opData_opWordOf, rejectClass]
  cases p with
  | reset => simp
  | pop => simp
  | internal => cases f <;> simp [Phase.isReserved]
  | input =>
    cases f with
    | seekStart => by_cases hd : d = 0x2F#8 <;> cases e <;> simp [hd]
    | seekEnd => by_cases hd : d = 0x21#8 <;> cases e <;> simp [hd]
    | trailer => by_cases hd : d = 0x0A#8 <;> cases e <;> simp [hd]
    | init | emitWait | done | reserved6 | reserved7 => simp [Phase.isReserved]

/-- Settles O3: every word is its four fields. -/
theorem maskedRowsSelectByFields : Obligations.MaskedRowsSelectByFields := by
  unfold Obligations.MaskedRowsSelectByFields
  intro w
  obtain ⟨p, f, e, d, rfl⟩ := exists_opWordOf w
  exact decodeWord_opWordOf p f e d

/-! ### What the word of each port selects (30_encoding.md R65 to R67) -/

theorem decodeWord_reset (f : Phase) (x : Symbol) : decodeWord (opWordOf .reset f x) = .ok .reset := by
  simp [maskedRowsSelectByFields _, decodeByFields]

theorem decodeWord_pop (f : Phase) (x : Symbol) : decodeWord (opWordOf .pop f x) = .ok .pop := by
  simp [maskedRowsSelectByFields _, decodeByFields]

/-- The engine has a step of its own in INIT and EMIT_WAIT only. -/
theorem decodeWord_internal {f : Phase} {x : Symbol} {i : Instr} :
    decodeWord (opWordOf .internal f x) = .ok i ↔ (f = .init ∧ i = .initBuild) ∨ (f = .emitWait ∧ i = .emitPush) := by
  rw [maskedRowsSelectByFields]
  cases f <;> simp [decodeByFields, eq_comm]

/-- An input is taken in SEEK_START, SEEK_END and TRAILER only, and there every symbol is. -/
theorem decodeWord_input {f : Phase} {e : Bool} {d : Byte} {i : Instr} :
    decodeWord (opWordOf .input f (symbolOf e d)) = .ok i ↔
      (f = .seekStart ∧ i = if e then .ssEos else if d = Config.startMark then .ssStart else .ssDiscard d) ∨
      (f = .seekEnd ∧ i = if e then .seEos else if d = Config.endMark then .seEnd else .seAccum d) ∨
      (f = .trailer ∧ i = if e then .trEos else if d = Config.eol then .trEol else .trByte d) := by
  rw [maskedRowsSelectByFields]
  cases f with
  | seekStart => cases e <;> by_cases hd : d = 0x2F#8 <;> simp [decodeByFields, Config.startMark, hd, eq_comm]
  | seekEnd => cases e <;> by_cases hd : d = 0x21#8 <;> simp [decodeByFields, Config.endMark, hd, eq_comm]
  | trailer => cases e <;> by_cases hd : d = 0x0A#8 <;> simp [decodeByFields, Config.eol, hd, eq_comm]
  | init | emitWait | done | reserved6 | reserved7 => simp [decodeByFields]

/-! ### The encoder field by field -/

/-- The word of an operation in its row's columns port, phase, eos and data (30_encoding.md R65). -/
def encodeByFields : Instr → OpWord
  | .reset => opWordOf .reset .init (symbolOf false 0)
  | .pop => opWordOf .pop .init (symbolOf false 0)
  | .initBuild => opWordOf .internal .init (symbolOf false 0)
  | .emitPush => opWordOf .internal .emitWait (symbolOf false 0)
  | .ssStart => opWordOf .input .seekStart (symbolOf false Config.startMark)
  | .ssEos => opWordOf .input .seekStart (symbolOf true 0)
  | .ssDiscard b => opWordOf .input .seekStart (symbolOf false b)
  | .seEnd => opWordOf .input .seekEnd (symbolOf false Config.endMark)
  | .seEos => opWordOf .input .seekEnd (symbolOf true 0)
  | .seAccum b => opWordOf .input .seekEnd (symbolOf false b)
  | .trEol => opWordOf .input .trailer (symbolOf false Config.eol)
  | .trEos => opWordOf .input .trailer (symbolOf true 0)
  | .trByte b => opWordOf .input .trailer (symbolOf false b)

/-- Filling in the data field fills in the symbol's byte. -/
theorem withData_opWordOf (p : Port) (f : Phase) (e : Bool) (b : Byte) :
    withData (opWordOf p f (symbolOf e 0)) b = opWordOf p f (symbolOf e b) := by
  have hw := Machine.eq_withData (opWordOf p f (symbolOf e b))
  rw [opWordOf_and_eosMask, opData_opWordOf] at hw
  exact hw.symm

theorem encode_eq_encodeByFields (i : Instr) : encode i = encodeByFields i := by
  cases i with
  | ssDiscard b => exact withData_opWordOf .input .seekStart false b
  | seAccum b => exact withData_opWordOf .input .seekEnd false b
  | trByte b => exact withData_opWordOf .input .trailer false b
  | _ => rfl

/-- Settles O1: the fields of an operation's word select its own row. A general-byte row comes after the named row of
its phase, and a well-formed operation does not carry the named byte. -/
theorem encodedOperationsDecodeBack : Obligations.EncodedOperationsDecodeBack := by
  unfold Obligations.EncodedOperationsDecodeBack
  intro i hwf
  rw [maskedRowsSelectByFields, encode_eq_encodeByFields]
  cases i with
  | ssDiscard b | seAccum b | trByte b =>
    have hb := bne_iff_ne.mp hwf
    simpa [encodeByFields, decodeByFields, Config.startMark, Config.endMark, Config.eol] using hb
  | _ => rfl

/-- Settles O2: a word of port RESET or POP selects its operation whatever its other fields. One of port INTERNAL or
INPUT selects an operation of its phase, and the end-of-stream bit and the byte choose among those of an input phase. -/
theorem decodedOperationsAreWellFormed : Obligations.DecodedOperationsAreWellFormed := by
  unfold Obligations.DecodedOperationsAreWellFormed
  intro w i h
  obtain ⟨p, f, e, d, rfl⟩ := exists_opWordOf w
  rw [encode_eq_encodeByFields]
  cases p with
  | reset =>
    cases (decodeWord_reset f _).symm.trans h
    simp [WellFormed, encodeByFields]
  | pop =>
    cases (decodeWord_pop f _).symm.trans h
    simp [WellFormed, encodeByFields]
  | internal =>
    obtain ⟨rfl, rfl⟩ | ⟨rfl, rfl⟩ := decodeWord_internal.mp h
    · simp [WellFormed, encodeByFields]
    · simp [WellFormed, encodeByFields]
  | input =>
    obtain ⟨rfl, rfl⟩ | ⟨rfl, rfl⟩ | ⟨rfl, rfl⟩ := decodeWord_input.mp h
    · cases e <;> by_cases hd : d = Config.startMark <;> simp [WellFormed, encodeByFields, hd]
    · cases e <;> by_cases hd : d = Config.endMark <;> simp [WellFormed, encodeByFields, hd]
    · cases e <;> by_cases hd : d = Config.eol <;> simp [WellFormed, encodeByFields, hd]

/-- Settles O4: each word is a closed term, and the 13 rows evaluate on it. -/
theorem writtenOutWordsDecode : Obligations.WrittenOutWordsDecode := by
  unfold Obligations.WrittenOutWordsDecode
  exact ⟨rfl, rfl, rfl, rfl, rfl, rfl, rfl, rfl, rfl, rfl, rfl⟩

end Sys2Proof

namespace Sys2Proof.Machine

/-! ### The word of a turn (30_encoding.md R60) -/

/-- The word of a turn in its fields (30_encoding.md R60). -/
theorem opWord_eq (s : State) (p : Port) :
    s.opWord p = opWordOf p s.phase (if p = .input then s.upstream.headD 0 else 0) := rfl

/-- Settles O47. -/
theorem turnWordCarriesPhaseAndSymbol : Obligations.TurnWordCarriesPhaseAndSymbol := by
  unfold Obligations.TurnWordCarriesPhaseAndSymbol
  intro s p
  rw [opWord_eq]
  refine ⟨opPort_opWordOf .., opPhase_opWordOf .., fun hp => ?_, fun x rest hp hx => ?_⟩
  · rw [opSymbol_opWordOf, if_neg hp]
  · rw [opSymbol_opWordOf, if_pos hp, hx, List.headD_cons]

end Sys2Proof.Machine

namespace Sys2Proof.Machine

/-! ### An operation outside its phase (30_encoding.md R61, R66, R67) -/

theorem engineStep_outside {s : State} {p : Phase} (effect : State → Except Fault State) (hp : s.phase ≠ p) :
    s.engineStep p effect =
      if s.phase.isReserved then .fault .reservedPhase else .next { s with report := none } := by
  rw [State.engineStep, if_neg hp]
  cases hr : s.phase.isReserved with
  | true => rfl
  | false => rw [begin_eq hr]

/-- Settles O29: each operation of the engine and the upstream is an `engineStep` of its home phase. -/
theorem operationOutsideItsPhaseWaits : Obligations.OperationOutsideItsPhaseWaits := by
  unfold Obligations.OperationOutsideItsPhaseWaits
  intro i s p hhome hp
  cases i with
  | reset | pop => cases hhome
  | initBuild | emitPush | ssStart | ssEos | ssDiscard _ | seEnd | seEos | seAccum _ | trEol | trEos | trByte _ =>
    cases hhome
    simp only [exec, execInitBuild, execEmitPush, execSsStart, execSsEos, execSsDiscard, execSeEnd, execSeEos,
      execSeAccum, execTrEol, execTrEos, execTrByte, engineStep_outside _ hp]

end Sys2Proof.Machine

namespace Sys2Proof.Machine

/-! ### The operation of a turn (30_encoding.md R60, R64, R67) -/

/-- No word of the engine's two ports selects an operation in a reserved phase. -/
theorem phase_not_reserved_of_decode {s : State} {p : Port} {i : Instr} (hp : p = .internal ∨ p = .input)
    (h : decodeWord (s.opWord p) = .ok i) : s.phase.isReserved = false := by
  rw [opWord_eq] at h
  obtain rfl | rfl := hp
  · obtain ⟨hphase, -⟩ | ⟨hphase, -⟩ := decodeWord_internal.mp h <;> rw [hphase] <;> rfl
  · obtain ⟨e, d, hx⟩ := exists_symbolOf (s.upstream.headD 0)
    rw [if_pos rfl, hx] at h
    obtain ⟨hphase, -⟩ | ⟨hphase, -⟩ | ⟨hphase, -⟩ := decodeWord_input.mp h <;> rw [hphase] <;> rfl

/-- A turn is not void where its word selects an operation, a symbol is offered if it is the upstream's, and the engine
has met no fault if it is the engine's or the upstream's. -/
theorem turnIsVoid_of_decode {s : State} {p : Port} {i : Instr} (hup : p = .input → s.upstream ≠ [])
    (hmark : p = .internal ∨ p = .input → s.faultMark = none) (h : decodeWord (s.opWord p) = .ok i) :
    s.turnIsVoid p = false := by
  have hrun (hp : p = .internal ∨ p = .input) : s.halted = false :=
    not_halted (phase_not_reserved_of_decode hp h) (hmark hp)
  cases p with
  | internal => exact hrun (.inl rfl)
  | input => simp [State.turnIsVoid, hrun, State.inValid, hup]
  | pop | reset => rfl

theorem step_of_fetch_none {s : State} (h : s.dropTurn.fetch s.nextPort = none) : step s = .next s.dropTurn.begin := by
  simp [step, h]

theorem step_of_decode {s : State} {i : Instr} (hup : s.nextPort = .input → s.upstream ≠ [])
    (hmark : s.nextPort = .internal ∨ s.nextPort = .input → s.faultMark = none)
    (h : decodeWord (s.opWord s.nextPort) = .ok i) :
    step s = s.dropTurn.settle (exec i (s.dropTurn.consumeSymbol s.nextPort)) := by
  have hword : decodeWord (s.dropTurn.opWord s.nextPort) = .ok i := h
  have hvoid : s.dropTurn.turnIsVoid s.nextPort = false := turnIsVoid_of_decode hup hmark hword
  simp [step, fetch_of_decode hvoid hword]

/-- POP and RESET answer a next state, so it is a turn of the engine or the upstream that meets a fault. -/
theorem port_of_exec_fault {s u : State} {p : Port} {i : Instr} {f : Fault} (h : decodeWord (s.opWord p) = .ok i)
    (hf : exec i u = .fault f) : p = .internal ∨ p = .input := by
  rw [opWord_eq] at h
  cases p with
  | internal => exact .inl rfl
  | input => exact .inr rfl
  | pop =>
    cases (decodeWord_pop _ _).symm.trans h
    obtain ⟨t, ht⟩ := execPop_total u
    cases ht.symm.trans hf
  | reset =>
    cases (decodeWord_reset _ _).symm.trans h
    cases hf

/-- Settles O46. -/
theorem stepRunsDecodedOperation : Obligations.StepRunsDecodedOperation := by
  unfold Obligations.StepRunsDecodedOperation
  rintro s u i hup hmark hword rfl
  have hstep := step_of_decode hup hmark hword
  refine ⟨fun t ht => ?_, fun f hf => ?_, exec_not_refused i _⟩
  · exact hstep.trans (congrArg s.dropTurn.settle ht)
  · have hnone : s.faultMark = none := hmark (port_of_exec_fault hword hf)
    refine hstep.trans ((congrArg s.dropTurn.settle hf).trans ?_)
    simp [State.recordFault, State.dropTurn, hnone]

end Sys2Proof.Machine

namespace Sys2Proof.Machine

/-! ### A turn of a halted machine (30_encoding.md R67, 60_exceptions.md R164) -/

theorem dropTurn_begin (s : State) :
    s.dropTurn.begin = { s with report := none, agenda := s.agenda.tail, faultMark := s.observedFault } := rfl

theorem step_of_reset {s : State} (h : s.nextPort = .reset) : step s = .next s.dropTurn.begin.clearBlock := by
  have hword : decodeWord (s.opWord s.nextPort) = .ok .reset := by rw [h]; exact decodeWord_reset _ _
  rw [step_of_decode (by simp [h]) (by simp [h]) hword, h]
  rfl

theorem step_of_pop {s : State} (h : s.nextPort = .pop) : step s = execPop s.dropTurn := by
  have hword : decodeWord (s.opWord s.nextPort) = .ok .pop := by rw [h]; exact decodeWord_pop _ _
  obtain ⟨t, ht⟩ := execPop_total s.dropTurn
  rw [step_of_decode (by simp [h]) (by simp [h]) hword, h]
  exact (congrArg s.dropTurn.settle ht).trans ht.symm

/-- Settles O43. -/
theorem reservedPhaseStopsEngine : Obligations.ReservedPhaseStopsEngine := by
  unfold Obligations.ReservedPhaseStopsEngine
  intro s
  refine ⟨fun hr hm => by simp [State.observedFault, hr, hm], fun f => observedFault_of_mark, fun hfault => ?_⟩
  have hhalted : s.dropTurn.halted = true := Option.isSome_iff_ne_none.mpr hfault
  refine ⟨fun hp => ?_, fun hp => ⟨_, step_of_reset hp, rfl, rfl, rfl⟩, fun hp => ?_⟩
  · refine step_of_fetch_none (fetch_of_void ?_)
    obtain hp | hp := hp <;> simp [hp, State.turnIsVoid, hhalted]
  · obtain ⟨t, ht⟩ := execPop_total s.dropTurn
    refine ⟨t, (step_of_pop hp).trans ht, ?_⟩
    obtain ⟨p, rest, hq, rfl⟩ | ⟨hq, rfl⟩ := execPop_next.mp ht
    · exact ⟨(congrArg List.tail hq).symm, rfl⟩
    · exact ⟨hq.trans (congrArg List.tail hq).symm, rfl⟩

end Sys2Proof.Machine

namespace Sys2Proof.Machine

/-! ### A turn whose port is not enabled (30_encoding.md R61, R66) -/

theorem idlePort_cases (s : State) : s.idlePort = .internal ∨ s.idlePort = .input := by
  unfold State.idlePort
  split
  · exact .inl rfl
  · split
    · exact .inr rfl
    · exact .inl rfl

/-- While the agenda is empty the turn is the engine's or the upstream's, so the agenda names every other turn. -/
theorem head_of_nextPort {s : State} (hi : s.nextPort ≠ .internal) (hu : s.nextPort ≠ .input) :
    s.agenda.head? = some s.nextPort := by
  cases hagenda : s.agenda with
  | cons p rest => simp [State.nextPort, hagenda]
  | nil =>
    have hidle : s.nextPort = s.idlePort := by simp [State.nextPort, hagenda]
    obtain h | h := idlePort_cases s
    · exact absurd (hidle.trans h) hi
    · exact absurd (hidle.trans h) hu

theorem not_void_of_fetch {s : State} {p : Port} {i : Instr} (h : s.fetch p = some i) : s.turnIsVoid p = false := by
  by_contra hvoid
  rw [fetch_of_void (Bool.eq_true_of_not_eq_false hvoid)] at h
  cases h

/-- An engine turn that selects an operation is enabled, or it is an EMIT_PUSH that the full hand-off blocks. -/
theorem enabled_of_fetch_internal {s : State} {i : Instr} (h : s.fetch .internal = some i) :
    s.enabled .internal = true ∨ (i = .emitPush ∧ s.phase = .emitWait ∧ s.hqFull = true) := by
  have hrun : s.halted = false := not_void_of_fetch h
  obtain ⟨hp, -⟩ | ⟨hp, rfl⟩ := decodeWord_internal.mp (fetch_some h)
  · simp [State.enabled, hrun, hp]
  · cases hfull : s.hqFull <;> simp [State.enabled, hrun, hp, hfull]

/-- An upstream turn that selects an operation is enabled. -/
theorem enabled_of_fetch_input {s : State} {i : Instr} (h : s.fetch .input = some i) : s.enabled .input = true := by
  obtain ⟨hrun, hoffered⟩ := Bool.or_eq_false_iff.mp (not_void_of_fetch h)
  have hword := fetch_some h
  obtain ⟨e, d, hx⟩ := exists_symbolOf (s.upstream.headD 0)
  rw [opWord_eq, if_pos rfl, hx] at hword
  have hready : s.inReady = true := by
    obtain ⟨hp, -⟩ | ⟨hp, -⟩ | ⟨hp, -⟩ := decodeWord_input.mp hword <;> simp [State.inReady, hp]
  simpa [State.enabled, hrun, hready] using hoffered

/-- Settles O48. -/
theorem disabledTurnWaits : Obligations.DisabledTurnWaits := by
  unfold Obligations.DisabledTurnWaits
  intro s hr hdis
  have hpass : s.dropTurn.begin = { s with report := none, agenda := s.agenda.tail } := begin_eq hr
  cases hf : s.dropTurn.fetch s.nextPort with
  | none => exact (step_of_fetch_none hf).trans (congrArg _ hpass)
  | some i =>
    cases hp : s.nextPort with
    | internal =>
      rw [hp] at hf hdis
      obtain hen | ⟨rfl, hphase, hfull⟩ := enabled_of_fetch_internal hf
      · cases hdis.symm.trans hen
      · have hblocked : ¬ s.hq.length < s.params.handoffDepth := by
          simpa using Nat.le_of_eq (beq_iff_eq.mp hfull).symm
        have hwait : exec .emitPush (s.dropTurn.consumeSymbol .internal) =
            .next { s with report := none, agenda := s.agenda.tail } :=
          execEmitPush_next.mpr ⟨hr, .inr ⟨.inr hblocked, rfl⟩⟩
        simp [step, hp, hf, hwait]
    | input =>
      rw [hp] at hf hdis
      cases hdis.symm.trans (enabled_of_fetch_input hf)
    | pop =>
      have hturn := head_of_nextPort (s := s) (by simp [hp]) (by simp [hp])
      have hq : s.hq = [] := by simpa [State.enabled, State.outPop, State.outValid, hp, hturn] using hdis
      exact (step_of_pop hp).trans (((execPop_next (s := s.dropTurn)).mpr (.inr ⟨hq, rfl⟩)).trans (congrArg _ hpass))
    | reset =>
      have hturn := head_of_nextPort (s := s) (by simp [hp]) (by simp [hp])
      simp [State.enabled, State.rst, hp, hturn] at hdis

end Sys2Proof.Machine

namespace Sys2Proof.Machine

/-! ### The run of a stream program (30_encoding.md R70, 70_reset_and_hazards.md R183) -/

/-- A bound on the steps that the eager order can still take: the entries that INIT has to build, the push of a payload
that waits, and for each symbol its transfer and the push that may follow it. -/
def State.pendingSteps (s : State) : Nat :=
  (if s.phase = .init then 256 - s.buildIdx.toNat else if s.phase = .emitWait then 1 else 0) + 2 * s.upstream.length

theorem pendingSteps_le_eagerBound (s : State) : s.pendingSteps ≤ s.eagerBound := by
  unfold State.pendingSteps State.eagerBound
  split
  · omega
  · split <;> omega

theorem pendingSteps_of_not_init {s : State} (h : s.phase ≠ .init) : s.pendingSteps ≤ 1 + 2 * s.upstream.length := by
  unfold State.pendingSteps
  rw [if_neg h]
  split <;> omega

/-- From a good state a turn runs the operation that its word selects. -/
theorem Inv.takeTurn_eq_exec {s : State} (h : Inv s) {p : Port} {i : Instr} (hup : p = .input → s.upstream ≠ [])
    (hword : decodeWord (s.opWord p) = .ok i) : s.takeTurn p = exec i (s.consumeSymbol p) := by
  obtain ⟨t, ht⟩ := (h.consumeSymbol p).exec_total i
  have hstep : s.takeTurn p = s.settle (exec i (s.consumeSymbol p)) :=
    step_of_decode (s := { s with agenda := p :: s.agenda }) hup (fun _ => h.noFault) hword
  rw [hstep, ht, settle_of_next]

theorem Inv.of_takeTurn {s t : State} (h : Inv s) {p : Port} (ht : s.takeTurn p = .next t) : Inv t :=
  everyStepKeepsInvariants _ t (h.with_agents _ _) ht

/-- INIT_BUILD comes one entry nearer to the end of INIT. -/
theorem pendingSteps_buildEntry {s : State} (hp : s.phase = .init) (hlt : s.buildIdx.toNat < 256) :
    (buildEntry s).pendingSteps < s.pendingSteps := by
  have hnext : (s.buildIdx + 1).toNat = s.buildIdx.toNat + 1 := by bv_omega
  simp only [State.pendingSteps, buildEntry_phase, buildEntry_buildIdx, buildEntry_upstream, hp, hnext]
  split <;> simp <;> omega

/-- An internal step builds one entry more of INIT, or pushes the payload that waited. -/
theorem Inv.internal_progress {s : State} (h : Inv s) (hen : s.enabled .internal = true) :
    ∃ t, s.takeTurn .internal = .next t ∧ t.pendingSteps < s.pendingSteps := by
  simp only [State.enabled, Bool.and_eq_true, Bool.or_eq_true, beq_iff_eq] at hen
  obtain ⟨-, hphase | ⟨hphase, hroom⟩⟩ := hen
  · have hturn : s.takeTurn .internal = exec .initBuild (s.consumeSymbol .internal) :=
      h.takeTurn_eq_exec (by simp) (decodeWord_internal.mpr (.inl ⟨hphase, rfl⟩))
    have hbuild := (execInitBuild_next (s := s.consumeSymbol .internal)).mpr ⟨h.phase, .inl ⟨hphase, rfl⟩⟩
    exact ⟨_, hturn.trans hbuild, pendingSteps_buildEntry (s := { s with report := none }) hphase (h.building hphase)⟩
  · have hturn : s.takeTurn .internal = exec .emitPush (s.consumeSymbol .internal) :=
      h.takeTurn_eq_exec (by simp) (decodeWord_internal.mpr (.inr ⟨hphase, rfl⟩))
    have hlt : s.hq.length < s.params.handoffDepth := by
      refine Nat.lt_of_le_of_ne h.capacity ?_
      simpa [State.hqFull] using hroom
    obtain ⟨p, hpay⟩ := h.reads_payload (by simp [State.holdsFrame, hphase])
    have hpush := (execEmitPush_next (s := s.consumeSymbol .internal)).mpr
      ⟨h.phase, .inl ⟨hphase, hlt, p, payload_ok_congr hpay rfl rfl, rfl⟩⟩
    refine ⟨_, hturn.trans hpush, ?_⟩
    simp [State.pendingSteps, hphase]

/-- Where the block is ready for input, every symbol selects an operation, and not RESET. -/
theorem exists_decode_of_inReady {s : State} (h : s.inReady = true) :
    ∃ i, decodeWord (s.opWord .input) = .ok i ∧ i ≠ .reset := by
  obtain ⟨e, d, hx⟩ := exists_symbolOf (s.upstream.headD 0)
  simp only [State.inReady, Bool.or_eq_true, beq_iff_eq] at h
  have hword : ∃ i, decodeWord (s.opWord .input) = .ok i := by
    rw [opWord_eq, if_pos rfl, hx]
    obtain (hp | hp) | hp := h
    · exact ⟨_, decodeWord_input.mpr (.inl ⟨hp, rfl⟩)⟩
    · exact ⟨_, decodeWord_input.mpr (.inr (.inl ⟨hp, rfl⟩))⟩
    · exact ⟨_, decodeWord_input.mpr (.inr (.inr ⟨hp, rfl⟩))⟩
  obtain ⟨i, hi⟩ := hword
  refine ⟨i, hi, ?_⟩
  rintro rfl
  obtain ⟨-, hport, -⟩ := decodedOperationsAreWellFormed _ _ hi
  rw [opWord_eq, opPort_opWordOf] at hport
  exact absurd hport (by decide)

/-- INIT is entered by RESET alone. -/
theorem OpEffect.phase_ne_init {i : Instr} {s t : State} (h : OpEffect i s t) (hr : i ≠ .reset)
    (hs : s.phase ≠ .init) : t.phase ≠ .init := by
  cases h with
  | reset => exact absurd rfl hr
  | build hp => exact absurd hp hs
  | idle _ | pop _ | popEmpty _ | accum _ _ _ | trailerByte _ => exact hs
  | _ => simp

/-- A transfer consumes one symbol, and at most one push can follow it. -/
theorem Inv.input_progress {s : State} (h : Inv s) (hen : s.enabled .input = true) :
    ∃ t, s.takeTurn .input = .next t ∧ t.pendingSteps < s.pendingSteps := by
  simp only [State.enabled, Bool.and_eq_true] at hen
  obtain ⟨⟨-, hoffered⟩, hready⟩ := hen
  have hup : s.upstream ≠ [] := by simpa [State.inValid] using hoffered
  have hphase : s.phase ≠ .init := by
    intro hp
    simp [State.inReady, hp] at hready
  obtain ⟨i, hword, hreset⟩ := exists_decode_of_inReady hready
  obtain ⟨t, ht⟩ := (h.consumeSymbol .input).exec_total i
  refine ⟨t, (h.takeTurn_eq_exec (fun _ => hup) hword).trans ht, ?_⟩
  have he : OpEffect i (s.consumeSymbol .input) t := exec_effect ht
  have hlength : t.upstream.length + 1 = s.upstream.length := by
    rw [he.upstream_eq, consumeSymbol_upstream, if_pos rfl, List.length_tail]
    exact Nat.sub_add_cancel (List.length_pos_iff.mpr hup)
  calc t.pendingSteps ≤ 1 + 2 * t.upstream.length := pendingSteps_of_not_init (he.phase_ne_init hreset hphase)
    _ < 2 * s.upstream.length := by omega
    _ ≤ s.pendingSteps := Nat.le_add_left _ _

theorem not_enabled_of_pendingSteps_zero {s : State} (h : Inv s) (hz : s.pendingSteps = 0) :
    s.enabled .internal = false ∧ s.enabled .input = false := by
  constructor
  · by_contra hen
    obtain ⟨t, -, hlt⟩ := h.internal_progress (Bool.eq_true_of_not_eq_false hen)
    omega
  · by_contra hen
    obtain ⟨t, -, hlt⟩ := h.input_progress (Bool.eq_true_of_not_eq_false hen)
    omega

/-- The eager order, given the steps it can take, comes to a good state in which nothing is left to take. -/
theorem Inv.eager_idle {s : State} (h : Inv s) {n : Nat} (hn : s.pendingSteps ≤ n) :
    ∃ t, s.eager n = .next t ∧ Inv t ∧ t.enabled .internal = false ∧ t.enabled .input = false := by
  induction n generalizing s with
  | zero => exact ⟨s, rfl, h, not_enabled_of_pendingSteps_zero h (Nat.le_zero.mp hn)⟩
  | succ n ih =>
    cases hi : s.enabled .internal with
    | true =>
      obtain ⟨u, hu, hlt⟩ := h.internal_progress hi
      rw [eager_of_internal n hi, hu, andThen_of_next]
      exact ih (h.of_takeTurn hu) (by omega)
    | false =>
      cases hin : s.enabled .input with
      | true =>
        obtain ⟨u, hu, hlt⟩ := h.input_progress hin
        rw [eager_of_input n hi hin, hu, andThen_of_next]
        exact ih (h.of_takeTurn hu) (by omega)
      | false => exact ⟨s, eager_of_idle _ hi hin, h, hi, hin⟩

/-- A line offers a symbol or takes a turn, and either keeps the invariants. -/
theorem Inv.perform {s : State} (h : Inv s) (l : StreamLine) : ∃ t, l.perform s = .next t ∧ Inv t := by
  cases l with
  | byte b => exact ⟨_, rfl, h.with_agents _ _⟩
  | eos => exact ⟨_, rfl, h.with_agents _ _⟩
  | pop =>
    obtain ⟨t, ht⟩ := takeTurn_total s .pop
    exact ⟨t, ht, h.of_takeTurn ht⟩
  | reset =>
    obtain ⟨t, ht⟩ := takeTurn_total s .reset
    exact ⟨t, ht, h.of_takeTurn ht⟩

/-- Settles O60, by induction on the program's lines. -/
theorem streamProgramLeavesNoStepPending : Obligations.StreamProgramLeavesNoStepPending := by
  unfold Obligations.StreamProgramLeavesNoStepPending
  intro program
  induction program with
  | nil => exact fun s h => h.eager_idle (pendingSteps_le_eagerBound s)
  | cons l rest ih =>
    intro s h
    obtain ⟨t, ht, hinv, -⟩ := h.eager_idle (pendingSteps_le_eagerBound s)
    obtain ⟨u, hu, hinv'⟩ := hinv.perform l
    rw [runProgram, ht, andThen_of_next, hu, andThen_of_next]
    exact ih u hinv'

end Sys2Proof.Machine

namespace Sys2Proof.Machine

/-! ### The CRC functions (40_crc_engine.md R81 to R85)

`crcBits_xor` makes the table and both forms of the update linear. The other law they rest on is that a register whose
low bits are zero is only shifted. -/

theorem tableEntry_xor (a b : Byte) : tableEntry (a ^^^ b) = tableEntry a ^^^ tableEntry b := by
  unfold tableEntry
  rw [BitVec.setWidth_xor, crcBits_xor]

/-- Settles O5. -/
theorem tableEntryIsLinear : Obligations.TableEntryIsLinear := by
  unfold Obligations.TableEntryIsLinear
  exact tableEntry_xor

@[simp] theorem tableEntry_zero : tableEntry 0#8 = 0#16 := rfl

/-- No entry but the first has a zero high byte (40_crc_engine.md R92). -/
theorem eq_zero_of_tableEntry_high_zero : ∀ b : Byte, (tableEntry b).extractLsb' 8 8 = 0 → b = 0 := by decide

/-- Settles O6: by linearity, equal high bytes give the entry of `a ^^^ b` a zero high byte. -/
theorem tableEntriesAreDistinct : Obligations.TableEntriesAreDistinct := by
  unfold Obligations.TableEntriesAreDistinct
  intro a b h
  have hzero : (tableEntry (a ^^^ b)).extractLsb' 8 8 = 0 := by
    rw [tableEntry_xor, BitVec.extractLsb'_xor]
    exact BitVec.xor_eq_zero_iff.mpr h
  exact BitVec.xor_eq_zero_iff.mp (eq_zero_of_tableEntry_high_zero _ hzero)

/-- While the bits shifted out are zero, the polynomial never enters. -/
theorem crcBits_of_low_zero {r : Word} (n : Nat) (h : ∀ i < n, r.getLsbD i = false) :
    Nat.repeat crcBit n r = r >>> n := by
  induction n with
  | zero => simp [Nat.repeat]
  | succ n ih =>
    have hbit : (r >>> n).getLsbD 0 = false := by simpa using h n (Nat.lt_succ_self n)
    rw [Nat.repeat, ih fun i hi => h i (Nat.lt_succ_of_lt hi), crcBit, hbit, BitVec.shiftRight_add]
    rfl

/-- Eight steps look up the low byte in the table and shift the high byte down. -/
theorem crcBits_eight (r : Word) : Nat.repeat crcBit 8 r = tableEntry (r.setWidth 8) ^^^ r >>> 8 := by
  have hsplit : r = (r.setWidth 8).setWidth 16 ^^^ r >>> 8 <<< 8 := by
    ext i hi
    by_cases hbyte : i < 8
    · simp [hbyte, BitVec.getLsbD_eq_getElem hi]
    · simp [hbyte, Nat.add_sub_cancel' (Nat.le_of_not_lt hbyte), BitVec.getLsbD_eq_getElem hi]
  have hlow : ∀ i < 8, (r >>> 8 <<< 8).getLsbD i = false := fun i hi => by simp [hi]
  have hhigh : r >>> 8 <<< 8 >>> 8 = r >>> 8 := by
    ext i hi
    simpa using BitVec.lt_of_getLsbD
  calc Nat.repeat crcBit 8 r
      = Nat.repeat crcBit 8 ((r.setWidth 8).setWidth 16) ^^^ Nat.repeat crcBit 8 (r >>> 8 <<< 8) := by
        rw [← crcBits_xor, ← hsplit]
    _ = tableEntry (r.setWidth 8) ^^^ r >>> 8 := by rw [crcBits_of_low_zero 8 hlow, hhigh, tableEntry]

/-- The shift drops the byte added: the corner case of 40_crc_engine.md R83. -/
theorem xor_byte_shiftRight (c : Word) (b : Byte) : (c ^^^ b.setWidth 16) >>> 8 = c >>> 8 := by
  ext i hi
  simp

theorem crcUpdate_eq_crcUpdateBits (c : Word) (b : Byte) : crcUpdate c b = crcUpdateBits c b := by
  rw [crcUpdateBits, crcBits_eight, xor_byte_shiftRight, crcUpdate, crcFold, crcIndex]

/-- Settles O7. -/
theorem tableUpdateEqualsBitSerial : Obligations.TableUpdateEqualsBitSerial := by
  unfold Obligations.TableUpdateEqualsBitSerial
  exact crcUpdate_eq_crcUpdateBits

/-! ### The checksum (40_crc_engine.md R84) -/

/-- The update is linear in the accumulator and the byte together. -/
theorem crcUpdate_xor (c d : Word) (a b : Byte) :
    crcUpdate (c ^^^ d) (a ^^^ b) = crcUpdate c a ^^^ crcUpdate d b := by
  have hsum : c ^^^ d ^^^ (a ^^^ b).setWidth 16 = (c ^^^ a.setWidth 16) ^^^ (d ^^^ b.setWidth 16) := by
    rw [BitVec.setWidth_xor]
    ac_rfl
  simp only [crcUpdate_eq_crcUpdateBits, crcUpdateBits, hsum, crcBits_xor]

theorem foldl_crcUpdate_xor {a b : List Byte} (h : a.length = b.length) (c d : Word) :
    (List.zipWith (· ^^^ ·) a b).foldl crcUpdate (c ^^^ d) = a.foldl crcUpdate c ^^^ b.foldl crcUpdate d := by
  induction a generalizing b c d with
  | nil =>
    obtain rfl : b = [] := List.length_eq_zero_iff.mp h.symm
    rfl
  | cons x xs ih =>
    obtain ⟨y, ys, rfl⟩ := List.exists_cons_of_length_eq_add_one h.symm
    simp only [List.zipWith_cons_cons, List.foldl_cons, crcUpdate_xor]
    exact ih (Nat.succ.inj h) _ _

/-- Settles O10: CRC_INIT is 0, so both folds begin where the fold of the sum does. -/
theorem checksumIsLinear : Obligations.ChecksumIsLinear := by
  unfold Obligations.ChecksumIsLinear
  exact fun a b h => foldl_crcUpdate_xor h Config.crcInit Config.crcInit

/-- Zero bytes leave the accumulator at CRC_INIT. -/
theorem checksum_replicate_zero (n : Nat) : checksum (List.replicate n 0) = Config.crcInit := by
  induction n with
  | zero => rfl
  | succ n ih => rw [List.replicate_succ', checksum_snoc, ih]; rfl

/-- Settles O8: after the zero bytes the fold of `s` begins at CRC_INIT. -/
theorem leadingZerosKeepChecksum : Obligations.LeadingZerosKeepChecksum := by
  unfold Obligations.LeadingZerosKeepChecksum
  intro n s
  rw [checksum_append, checksum_replicate_zero, checksum]

/-- Folding in the accumulator's own low byte reads entry 0. -/
theorem crcUpdate_low_byte (c : Word) : crcUpdate c (c.extractLsb' 0 8) = c >>> 8 := by
  have hidx : crcIndex c (c.extractLsb' 0 8) = 0 := by
    ext i hi
    simp [crcIndex]
  simp [crcUpdate, hidx, crcFold]

/-- Settles O9: each appended byte is the low byte of the accumulator it is folded into, so both are shifted out. -/
theorem appendedChecksumLeavesZero : Obligations.AppendedChecksumLeavesZero := by
  unfold Obligations.AppendedChecksumLeavesZero
  intro s
  generalize hc : checksum s = c
  have hhigh : c.extractLsb' 8 8 = (c >>> 8).extractLsb' 0 8 := by
    ext i hi
    simp
  calc checksum (s ++ [c.extractLsb' 0 8, c.extractLsb' 8 8])
      = crcUpdate (crcUpdate c (c.extractLsb' 0 8)) (c.extractLsb' 8 8) := by simp [checksum_append, hc]
    _ = c >>> 8 >>> 8 := by rw [crcUpdate_low_byte, hhigh, crcUpdate_low_byte]
    _ = c >>> 16 := (BitVec.shiftRight_add ..).symm
    _ = 0 := BitVec.ushiftRight_eq_zero (Nat.le_refl 16)

end Sys2Proof.Machine

namespace Sys2Proof.Machine

/-! ### The four digits (40_crc_engine.md R86, R87) -/

theorem hexDigit_injective : ∀ {m n : BitVec 4}, hexDigit m = hexDigit n → m = n := by decide

theorem hexDigit_uppercase : ∀ n : BitVec 4,
    (0x30 ≤ (hexDigit n).toNat ∧ (hexDigit n).toNat ≤ 0x39) ∨
      (0x41 ≤ (hexDigit n).toNat ∧ (hexDigit n).toNat ≤ 0x46) := by decide

theorem digitsMatch_iff (d : Vector Byte 4) (v : Word) : digitsMatch d v = true ↔ d = hex4 v :=
  ⟨eq_hex4_of_digitsMatch, fun h => by simp [h, digitsMatch]⟩

/-- A word is its four nibbles. -/
theorem nibbles_append (v : Word) :
    v.extractLsb' 12 4 ++ v.extractLsb' 8 4 ++ v.extractLsb' 4 4 ++ v.extractLsb' 0 4 = v := by
  rw [BitVec.extractLsb'_append_extractLsb'_eq_extractLsb' (show 12 = 8 + 4 from rfl),
    BitVec.extractLsb'_append_extractLsb'_eq_extractLsb' (show 8 = 4 + 4 from rfl),
    BitVec.extractLsb'_append_extractLsb'_eq_extractLsb' (show 4 = 0 + 4 from rfl)]
  exact BitVec.extractLsb'_eq_self

theorem hex4_injective {v w : Word} (h : hex4 v = hex4 w) : v = w := by
  have hdigit (i : Nat) (hi : i < 4) : (hex4 v)[i] = (hex4 w)[i] := by rw [h]
  rw [← nibbles_append v, ← nibbles_append w, hexDigit_injective (hdigit 0 (by decide)),
    hexDigit_injective (hdigit 1 (by decide)), hexDigit_injective (hdigit 2 (by decide)),
    hexDigit_injective (hdigit 3 (by decide))]

theorem mem_hex4 {v : Word} {b : Byte} (h : b ∈ (hex4 v).toList) : ∃ n, b = hexDigit n := by
  simp only [hex4, Vector.toList_mk, List.mem_cons, List.not_mem_nil, or_false] at h
  obtain h | h | h | h := h
  all_goals exact ⟨_, h⟩

/-- Settles O12: a word is its nibbles, and each nibble has a digit of its own. -/
theorem digitsMatchOneValueInUppercase : Obligations.DigitsMatchOneValueInUppercase := by
  unfold Obligations.DigitsMatchOneValueInUppercase
  refine ⟨digitsMatch_iff, fun _ _ => hex4_injective, fun v b hb => ?_⟩
  obtain ⟨n, rfl⟩ := mem_hex4 hb
  exact hexDigit_uppercase n

end Sys2Proof.Machine

namespace Sys2Proof.Machine

/-! ### The table build (40_crc_engine.md R82) -/

/-- What INIT_BUILD writes, by the value of `build_idx`. -/
theorem buildEntry_eq {s : State} (hp : s.phase = .init) (hlt : s.buildIdx.toNat < 256) :
    buildEntry s =
      { s with
        table := Memory.write s.table s.buildIdx.toNat (tableEntry (BitVec.ofNat 8 s.buildIdx.toNat))
        buildIdx := BitVec.ofNat 9 (s.buildIdx.toNat + 1)
        phase := if s.buildIdx.toNat = 255 then .seekStart else .init } := by
  have hidx : (s.buildIdx.setWidth 8 : Byte) = BitVec.ofNat 8 s.buildIdx.toNat := rfl
  have hval : (BitVec.ofNat 8 s.buildIdx.toNat).toNat = s.buildIdx.toNat := by bv_omega
  have hnext : BitVec.ofNat 9 (s.buildIdx.toNat + 1) = s.buildIdx + 1 := by bv_omega
  have hlast : s.buildIdx.toNat = 255 ↔ s.buildIdx + 1 = 256 := by bv_omega
  simp only [buildEntry, State.tableWrite, hidx, hval, hnext, hlast, hp]

/-- Settles O13: INIT is not reserved, so INIT_BUILD builds its entry with the report port cleared. -/
theorem initBuildWritesNextEntry : Obligations.InitBuildWritesNextEntry := by
  unfold Obligations.InitBuildWritesNextEntry
  intro s hp hlt
  have hbuild := buildEntry_eq (s := { s with report := none }) hp hlt
  exact execInitBuild_next.mpr ⟨by simp [hp], .inl ⟨hp, hbuild.symm⟩⟩

end Sys2Proof.Machine

namespace Sys2Proof.Machine

/-! ### The operations of Seek-start (41_frame_extractor.md R102 to R104) -/

/-- Settles O15: 0xDC41 is the checksum of the marker alone. -/
theorem ssStartOpensFrame : Obligations.SsStartOpensFrame := by
  unfold Obligations.SsStartOpensFrame
  intro s hp hready hm
  have hcrc : crcUpdate Config.crcInit Config.startMark = 0xDC41 := by decide
  exact execSsStart_next.mpr ⟨by simp [hp], .inl ⟨hp, hm, _, hcrc ▸ crcUpdate_of_ready hready _ _, rfl⟩⟩

/-- Settles O16. -/
theorem ssEosEndsSequence : Obligations.SsEosEndsSequence := by
  unfold Obligations.SsEosEndsSequence
  exact fun s hp => execSsEos_next.mpr ⟨by simp [hp], .inl ⟨hp, rfl⟩⟩

/-- Settles O17. -/
theorem ssDiscardChangesNothing : Obligations.SsDiscardChangesNothing := by
  unfold Obligations.SsDiscardChangesNothing
  exact fun s b hp => (execSsDiscard_next b).mpr ⟨by simp [hp], rfl⟩

end Sys2Proof.Machine

namespace Sys2Proof.Machine

/-! ### The operations of Seek-end (41_frame_extractor.md R105 to R109) -/

/-- Settles O18: with the table built, the byte is folded by the pure update. -/
theorem seAccumCapturesByte : Obligations.SeAccumCapturesByte := by
  unfold Obligations.SeAccumCapturesByte
  intro s b hp hready hroom
  exact execSeAccum_next.mpr ⟨by simp [hp], .inr (.inl ⟨hp, hroom, _, crcUpdate_of_ready hready _ _, rfl⟩)⟩

/-- Settles O19: with the table built, the terminator is folded by the pure update. -/
theorem seEndCapturesTerminator : Obligations.SeEndCapturesTerminator := by
  unfold Obligations.SeEndCapturesTerminator
  intro s hp hready hroom
  exact execSeEnd_next.mpr ⟨by simp [hp], .inr (.inl ⟨hp, hroom, _, crcUpdate_of_ready hready _ _, rfl⟩)⟩

/-- Settles O20: both operations test for the full buffer before they look at the byte. -/
theorem fullBufferDropsFrame : Obligations.FullBufferDropsFrame := by
  unfold Obligations.FullBufferDropsFrame
  rintro s i (rfl | ⟨b, rfl⟩) hp hfull
  · exact execSeEnd_next.mpr ⟨by simp [hp], .inl ⟨hp, hfull, rfl⟩⟩
  · exact execSeAccum_next.mpr ⟨by simp [hp], .inl ⟨hp, hfull, rfl⟩⟩

/-- Settles O21. -/
theorem seEosReportsMissingTerminator : Obligations.SeEosReportsMissingTerminator := by
  unfold Obligations.SeEosReportsMissingTerminator
  exact fun s hp => execSeEos_next.mpr ⟨by simp [hp], .inl ⟨hp, rfl⟩⟩

end Sys2Proof.Machine

namespace Sys2Proof.Machine

/-! ### The operations of the trailer (41_frame_extractor.md R110 to R112, R116) -/

theorem toNat_tlenNext : ∀ n : BitVec 3, (tlenNext n).toNat = min (n.toNat + 1) 7 := by decide

/-- The byte is stored as the digit that the count names, if there is one (10_state.md R17). -/
theorem getElem_tdigNext (d : Vector Byte 4) (n : BitVec 3) (b : Byte) (k : Fin 4) :
    (tdigNext d n b)[k] = if k.val = n.toNat then b else d[k] := by
  unfold tdigNext
  split
  · simp [Vector.getElem_set, eq_comm]
  · rw [if_neg (by omega)]

/-- What TR_BYTE does in its phase. -/
theorem exec_trByte {s : State} (hp : s.phase = .trailer) (b : Byte) :
    exec (.trByte b) s =
      .next { s with report := none, tdig := tdigNext s.tdig s.tlen b, tlen := tlenNext s.tlen } :=
  execTrByte_next.mpr ⟨by simp [hp], .inl ⟨hp, rfl⟩⟩

/-- Settles O22. -/
theorem trByteKeepsFourDigits : Obligations.TrByteKeepsFourDigits := by
  unfold Obligations.TrByteKeepsFourDigits
  exact fun s b hp => ⟨_, exec_trByte hp b, rfl, toNat_tlenNext _, getElem_tdigNext _ _ b⟩

/-- Settles O23: a byte that the count 4 or more names is no digit. -/
theorem fifthTrailerByteIsNotTested : Obligations.FifthTrailerByteIsNotTested := by
  unfold Obligations.FifthTrailerByteIsNotTested
  intro s b b' hp hl
  have hfifth (c : Byte) : exec (.trByte c) s = .next { s with report := none, tlen := 5 } := by
    rw [exec_trByte hp, hl]
    rfl
  exact ⟨hfifth b, (hfifth b).trans (hfifth b').symm⟩

/-- Settles O24: one arm of the operation for each clause, and the digit test is equality with Hex4. -/
theorem trEolVerifiesFrame : Obligations.TrEolVerifiesFrame := by
  unfold Obligations.TrEolVerifiesFrame
  intro s hp
  have hr : s.phase.isReserved = false := by simp [hp]
  have hdigits : digitsMatch s.tdig s.crc = true ↔ s.tdig = hex4 s.crc := digitsMatch_iff _ _
  refine ⟨fun hl => ?_, fun hl hd => ?_, fun hl hd hroom p hpay => ?_, fun hl hd hfull => ?_⟩
  · exact execTrEol_next.mpr ⟨hr, .inl ⟨hp, hl, rfl⟩⟩
  · exact execTrEol_next.mpr ⟨hr, .inr (.inl ⟨hp, hl, Bool.eq_false_iff.mpr (hdigits.not.mpr hd), rfl⟩)⟩
  · exact execTrEol_next.mpr ⟨hr, .inr (.inr (.inl ⟨hp, hl, hdigits.mpr hd, hroom, p, hpay, rfl⟩))⟩
  · exact execTrEol_next.mpr
      ⟨hr, .inr (.inr (.inr (.inl ⟨hp, hl, hdigits.mpr hd, Nat.not_lt.mpr hfull, rfl⟩)))⟩

/-- Settles O25. -/
theorem trEosDropsFrame : Obligations.TrEosDropsFrame := by
  unfold Obligations.TrEosDropsFrame
  exact fun s hp => execTrEos_next.mpr ⟨by simp [hp], .inl ⟨hp, rfl⟩⟩

end Sys2Proof.Machine

namespace Sys2Proof.Machine

/-! ### One changed byte (41_frame_extractor.md R121)

The update is linear, so it is injective where it takes nothing but zero to zero. -/

/-- The polynomial has bit 15, which the shift leaves clear, so no bit that is shifted out is lost. -/
theorem eq_zero_of_crcBit {r : Word} (h : crcBit r = 0) : r = 0 := by
  have hbit (i : Nat) : (crcBit r).getLsbD i = false := by rw [h]; exact BitVec.getLsbD_zero
  unfold crcBit at hbit
  cases hlow : r.getLsbD 0 with
  | true =>
    rw [hlow] at hbit
    simpa [Config.poly] using hbit 15
  | false =>
    rw [hlow] at hbit
    refine BitVec.eq_of_getLsbD_eq fun i _ => ?_
    cases i with
    | zero => simpa using hlow
    | succ i => simpa [Nat.add_comm] using hbit i

theorem crcBits_injective (n : Nat) {a b : Word} (h : Nat.repeat crcBit n a = Nat.repeat crcBit n b) : a = b := by
  induction n with
  | zero => exact h
  | succ n ih =>
    have hdiff : crcBit (Nat.repeat crcBit n a ^^^ Nat.repeat crcBit n b) = 0 := by
      rw [crcBit_xor]
      exact BitVec.xor_eq_zero_iff.mpr h
    exact ih (BitVec.xor_eq_zero_iff.mp (eq_zero_of_crcBit hdiff))

/-- Equal updates fold equal words. -/
theorem crcUpdate_inj {c d : Word} {a b : Byte} :
    crcUpdate c a = crcUpdate d b ↔ c ^^^ a.setWidth 16 = d ^^^ b.setWidth 16 := by
  rw [crcUpdate_eq_crcUpdateBits, crcUpdate_eq_crcUpdateBits]
  exact ⟨crcBits_injective 8, congrArg _⟩

theorem crcUpdate_right_inj {c : Word} {a b : Byte} : crcUpdate c a = crcUpdate c b ↔ a = b := by
  rw [crcUpdate_inj, BitVec.xor_right_inj]
  exact ⟨fun h => by simpa using congrArg (BitVec.setWidth 8) h, congrArg _⟩

/-- The bytes that follow keep different accumulators apart. -/
theorem foldl_crcUpdate_injective (q : List Byte) {c d : Word} (h : q.foldl crcUpdate c = q.foldl crcUpdate d) :
    c = d := by
  induction q generalizing c d with
  | nil => exact h
  | cons x q ih => exact (BitVec.xor_left_inj _).mp (crcUpdate_inj.mp (ih h))

/-- Settles O11: the changed byte sets the accumulators apart, the bytes after it keep them so, and Hex4 is injective. -/
theorem oneChangedByteChangesDigits : Obligations.OneChangedByteChangesDigits := by
  unfold Obligations.OneChangedByteChangesDigits
  intro p q b b' hb
  have hcrc : checksum (p ++ b :: q) ≠ checksum (p ++ b' :: q) := by
    simp only [checksum_append, List.foldl_cons]
    exact fun h => hb (crcUpdate_right_inj.mp (foldl_crcUpdate_injective q h))
  exact ⟨hcrc, Bool.eq_false_iff.mpr fun h => hcrc (hex4_injective ((digitsMatch_iff _ _).mp h))⟩

end Sys2Proof.Machine

namespace Sys2Proof.Machine

/-! ### A stream without a marked region (41_frame_extractor.md R119) -/

theorem byteSymbol_eq_symbolOf (b : Byte) : byteSymbol b = symbolOf false b :=
  BitVec.setWidth_eq_append (by decide)

/-- An operation whose word names a byte runs in a turn of the upstream that offers this byte (30_encoding.md R65). -/
theorem offered_of_decode {s : State} {p : Port} {i : Instr} (h : decodeWord (s.opWord p) = .ok i)
    (hport : opPort (encode i) = .input) (hbyte : (encode i).getLsbD 8 = false) :
    p = .input ∧ s.upstream.headD 0 = byteSymbol (opData (encode i)) := by
  obtain ⟨-, hp, -, heos, hdata⟩ := decodedOperationsAreWellFormed _ _ h
  obtain ⟨e, d, hx⟩ := exists_symbolOf (s.upstream.headD 0)
  obtain rfl : p = .input := by rw [← hport, hp, opWord_eq, opPort_opWordOf]
  have hin : opPort (s.opWord .input) = .input := opPort_opWordOf ..
  have hword : s.opWord .input = opWordOf .input s.phase (symbolOf e d) := by rw [opWord_eq, if_pos rfl, hx]
  have hlow : (s.opWord .input).getLsbD 8 = false := (heos hin).symm.trans hbyte
  have he : e = false := by simpa [hword] using hlow
  rw [hx, hdata hin hlow, hword, opData_opWordOf, he, byteSymbol_eq_symbolOf]
  exact ⟨rfl, rfl⟩

/-- A stream in which no start marker is followed, anywhere later, by a terminator. -/
def NoMarkedRegion (xs : List Symbol) : Prop :=
  ∀ pre mid post : List Symbol, xs ≠ pre ++ byteSymbol Config.startMark :: (mid ++ byteSymbol Config.endMark :: post)

theorem NoMarkedRegion.tail {xs : List Symbol} (h : NoMarkedRegion xs) : NoMarkedRegion xs.tail := by
  cases xs with
  | nil => exact h
  | cons x xs => exact fun pre mid post heq => h (x :: pre) mid post (congrArg (List.cons x) heq)

/-- No terminator comes after the marker that opens a frame. -/
theorem NoMarkedRegion.endMark_not_mem {xs : List Symbol} (h : NoMarkedRegion xs)
    (hx : xs.headD 0 = byteSymbol Config.startMark) : byteSymbol Config.endMark ∉ xs.tail := by
  cases xs with
  | nil => exact absurd hx (by decide)
  | cons x xs =>
    intro hmem
    obtain ⟨mid, post, rfl⟩ := List.append_of_mem hmem
    exact h [] mid post (congrArg (List.cons · _) hx)

/-- What a run over such a stream keeps: no frame is complete, and one that is open finds no terminator. -/
structure State.Unterminated (s : State) : Prop where
  inv : Inv s
  nothingQueued : s.hq = []
  nothingDelivered : s.delivered = []
  noRegion : NoMarkedRegion s.upstream
  noTrailer : s.phase ≠ .trailer
  noWait : s.phase ≠ .emitWait
  noTerminator : s.phase = .seekEnd → byteSymbol Config.endMark ∉ s.upstream

/-- The upstream may have moved on by a symbol, and the agenda in any way. -/
theorem State.Unterminated.consumed {s : State} (h : s.Unterminated) (p : Port) :
    (s.dropTurn.consumeSymbol p).Unterminated where
  inv := h.inv.dropTurn.consumeSymbol p
  nothingQueued := h.nothingQueued
  nothingDelivered := h.nothingDelivered
  noRegion := by
    rw [consumeSymbol_upstream]
    split
    · exact h.noRegion.tail
    · exact h.noRegion
  noTrailer := h.noTrailer
  noWait := h.noWait
  noTerminator hp hmem := by
    rw [consumeSymbol_upstream] at hmem
    split at hmem
    · exact h.noTerminator hp (List.mem_of_mem_tail hmem)
    · exact h.noTerminator hp hmem

/-- A payload enters the hand-off from TRAILER or EMIT_WAIT only (42_handoff_control.md R131). -/
theorem OpEffect.no_payload {i : Instr} {s t : State} (h : OpEffect i s t) (htrailer : s.phase ≠ .trailer)
    (hwait : s.phase ≠ .emitWait) (hq : s.hq = []) (hd : s.delivered = []) : t.hq = [] ∧ t.delivered = [] := by
  cases h with
  | reset => exact ⟨rfl, hd⟩
  | pop hcons => exact absurd (hcons.symm.trans hq) (by simp)
  | emit hp _ _ => exact absurd hp hwait
  | verified hp _ _ _ _ => exact absurd hp htrailer
  | _ => exact ⟨hq, hd⟩

/-- TRAILER is entered by SE_END alone, from SEEK_END, and EMIT_WAIT from TRAILER. -/
theorem OpEffect.no_trailer {i : Instr} {s t : State} (h : OpEffect i s t) (htrailer : s.phase ≠ .trailer)
    (hwait : s.phase ≠ .emitWait) (hend : s.phase = .seekEnd → i ≠ .seEnd) :
    t.phase ≠ .trailer ∧ t.phase ≠ .emitWait := by
  cases h with
  | idle _ | pop _ | popEmpty _ | accum _ _ _ => exact ⟨htrailer, hwait⟩
  | terminate hp _ _ => exact absurd rfl (hend hp)
  | verifiedFull hp _ _ _ | trailerByte hp => exact absurd hp htrailer
  | build hp =>
    rw [buildEntry_phase, hp]
    split <;> simp
  | _ => simp

/-- SEEK_END is entered by SS_START alone. -/
theorem OpEffect.seekEnd_cases {i : Instr} {s t : State} (h : OpEffect i s t) (ht : t.phase = .seekEnd) :
    s.phase = .seekEnd ∨ i = .ssStart := by
  cases h with
  | idle _ | pop _ | popEmpty _ | accum _ _ _ => exact .inl ht
  | start _ _ _ => exact .inr rfl
  | trailerByte hp => exact absurd (hp.symm.trans ht) (by decide)
  | build hp =>
    rw [buildEntry_phase, hp] at ht
    split at ht <;> cases ht
  | reset | emit _ _ _ | startEos _ | accumOverflow _ _ | terminate _ _ _ | terminateOverflow _ _ | endEos _
  | wrongLength _ _ | wrongDigits _ _ _ | verified _ _ _ _ _ | verifiedFull _ _ _ _ | trailerEos _ => cases ht

/-- An operation keeps it, if it opens a frame only where no terminator follows, and ends none. -/
theorem OpEffect.unterminated {i : Instr} {s t : State} (h : OpEffect i s t) (hs : s.Unterminated) (ht : Inv t)
    (hstart : i = .ssStart → byteSymbol Config.endMark ∉ s.upstream) (hend : s.phase = .seekEnd → i ≠ .seEnd) :
    t.Unterminated := by
  obtain ⟨hq, hd⟩ := h.no_payload hs.noTrailer hs.noWait hs.nothingQueued hs.nothingDelivered
  obtain ⟨htrailer, hwait⟩ := h.no_trailer hs.noTrailer hs.noWait hend
  refine ⟨ht, hq, hd, ?_, htrailer, hwait, fun hp => ?_⟩
  · rw [h.upstream_eq]
    exact hs.noRegion
  · rw [h.upstream_eq]
    exact (h.seekEnd_cases hp).elim hs.noTerminator hstart

/-- SS_START has consumed a marker and SE_END would consume a terminator; the stream says what can follow them. -/
theorem State.Unterminated.step {s t : State} (hs : s.Unterminated) (h : step s = .next t) : t.Unterminated := by
  have ht : Inv t := everyStepKeepsInvariants s t hs.inv h
  obtain rfl | ⟨i, hword, he⟩ | ⟨i, f, -, hfault, -⟩ := step_effect h
  · have hpass : OpEffect .pop s.dropTurn s.dropTurn.begin := .popEmpty hs.nothingQueued
    exact hpass.unterminated (hs.consumed .pop) ht (by simp) (by simp)
  · refine he.unterminated (hs.consumed _) ht ?_ ?_
    · rintro rfl
      obtain ⟨hp, hx⟩ := offered_of_decode hword rfl rfl
      rw [consumeSymbol_upstream, if_pos hp]
      exact hs.noRegion.endMark_not_mem hx
    · rintro hphase rfl
      obtain ⟨-, hx⟩ := offered_of_decode hword rfl rfl
      refine hs.noTerminator hphase ?_
      cases hup : s.upstream with
      | nil => exact absurd (hup ▸ hx) (by decide)
      | cons x xs => exact List.mem_cons.mpr (.inl (hup ▸ hx).symm)
  · obtain ⟨u, hu⟩ := (hs.inv.dropTurn.consumeSymbol _).exec_total i
    cases hu.symm.trans hfault

theorem State.Unterminated.of_reaches {s t : State} (hs : s.Unterminated) (h : Reaches s t) : t.Unterminated := by
  induction h with
  | refl => exact hs
  | tail _ hstep ih => exact ih.step hstep

/-- Settles O56: INIT and SEEK_START hold no frame yet. -/
theorem noMarkedRegionNoPayload : Obligations.NoMarkedRegionNoPayload := by
  unfold Obligations.NoMarkedRegionNoPayload
  intro s t hinv hphase hq hd hregion hreach
  have hs : s.Unterminated := by
    refine ⟨hinv, hq, hd, hregion, ?_, ?_, ?_⟩ <;> obtain hp | hp := hphase <;> simp [hp]
  have ht : t.Unterminated := hs.of_reaches hreach
  exact ⟨ht.nothingQueued, ht.nothingDelivered⟩

end Sys2Proof.Machine

namespace Sys2Proof.Machine

/-! ### A valid frame, byte by byte (41_frame_extractor.md R120)

The frame's three parts are taken one after the other: the body, the trailer's digits with CR, and the line feed. -/

/-! #### Runs of input turns -/

theorem runSteps_succ {s t : State} (h : step s = .next t) (n : Nat) : runSteps (n + 1) s = runSteps n t := by
  simp only [runSteps, Host.Core.run, core, h]

theorem runSteps_add {m n : Nat} {s t : State} (h : runSteps m s = .next t) : runSteps (m + n) s = runSteps n t := by
  induction m generalizing s with
  | zero =>
    cases h
    rw [Nat.zero_add]
  | succ m ih =>
    obtain ⟨u, hu⟩ := step_total s
    rw [runSteps_succ hu] at h
    rw [Nat.add_right_comm, runSteps_succ hu, ih h]

/-- `s` with other queues of the agents around it. -/
def State.withAgents (s : State) (us : List Symbol) (ps : List Port) : State :=
  { s with upstream := us, agenda := ps }

@[simp] theorem withAgents_self (s : State) : s.withAgents s.upstream s.agenda = s := rfl

/-- Input turns that offer the bytes `xs`, taken one after the other, lead from `s` to `t`, whatever comes after them. -/
def Takes (s : State) (xs : List Byte) (t : State) : Prop :=
  ∀ (us : List Symbol) (ps : List Port),
    runSteps xs.length (s.withAgents (xs.map byteSymbol ++ us) (List.replicate xs.length .input ++ ps)) =
      .next (t.withAgents us ps)

theorem Takes.nil (s : State) : Takes s [] s := fun _ _ => rfl

theorem Takes.append {s t u : State} {xs ys : List Byte} (h : Takes s xs t) (h' : Takes t ys u) :
    Takes s (xs ++ ys) u := by
  intro us ps
  have hrun := runSteps_add (n := ys.length) (h (ys.map byteSymbol ++ us) (List.replicate ys.length .input ++ ps))
  rw [h'] at hrun
  simpa [List.replicate_append_replicate, ← List.append_assoc] using hrun

/-- One byte: the operation it selects in the phase of `s` runs, and does not look at the agents. -/
theorem Inv.takes_byte {s t : State} (h : Inv s) {b : Byte} {i : Instr}
    (hword : decodeWord (opWordOf .input s.phase (symbolOf false b)) = .ok i)
    (hexec : ∀ us ps, exec i (s.withAgents us ps) = .next (t.withAgents us ps)) : Takes s [b] t ∧ Inv t := by
  constructor
  · intro us ps
    have hturn : step (s.withAgents (byteSymbol b :: us) (.input :: ps)) = exec i (s.withAgents us ps) := by
      refine (h.with_agents (byteSymbol b :: us) ps).takeTurn_eq_exec (p := .input) (by simp) ?_
      rw [← hword, ← byteSymbol_eq_symbolOf]
      rfl
    have hstep : step (s.withAgents (byteSymbol b :: us) (.input :: ps)) = .next (t.withAgents us ps) :=
      hturn.trans (hexec us ps)
    exact runSteps_succ hstep 0
  · have hself : exec i (s.withAgents t.upstream t.agenda) = .next t := hexec t.upstream t.agenda
    exact (exec_effect hself).keeps_inv (h.with_agents _ _) fun hi => seAccum_ne_endMark (hi ▸ hword) rfl

/-! #### The frame so far -/

/-- `t` stands in phase `ph` with the frame `p` in its buffer. Since `s` it has queued, delivered and reported nothing. -/
structure State.Holds (t s : State) (ph : Phase) (p : List Byte) : Prop where
  inv : Inv t
  phase : t.phase = ph
  payload : t.payload = .ok p
  params : t.params = s.params
  hq : t.hq = s.hq
  delivered : t.delivered = s.delivered
  reportLog : t.reportLog = s.reportLog

theorem State.Holds.crc_eq {t s : State} {ph : Phase} {p : List Byte} (h : t.Holds s ph p)
    (hf : t.holdsFrame = true) : t.crc = checksum p := by
  obtain ⟨q, hq⟩ := h.inv.captured hf
  rw [hq.crc, hq.unique h.payload]

/-- The start marker (41_frame_extractor.md R102). -/
theorem Inv.takes_startMark {s : State} (h : Inv s) (hp : s.phase = .seekStart) :
    ∃ t, Takes s [Config.startMark] t ∧ t.Holds s .seekEnd [Config.startMark] := by
  have hready : s.tableReady := h.tableReady (by simp [hp])
  obtain ⟨htakes, hinv⟩ := h.takes_byte (b := Config.startMark) (i := .ssStart)
    (t := { s with
            report := none, fbuf := Memory.write s.fbuf 0 0x2F, flen := 1, crc := 0xDC41, tlen := 0
            phase := .seekEnd })
    (decodeWord_input.mpr (.inl ⟨hp, rfl⟩)) fun us ps => ssStartOpensFrame (s.withAgents us ps) hp hready h.maxFrame_pos
  exact ⟨_, htakes, hinv, rfl, payload_append (s := s.bufClear) (p := []) rfl rfl rfl, rfl, rfl, rfl, rfl⟩

/-- One byte of the body that is no terminator (41_frame_extractor.md R105). -/
theorem State.Holds.takes_bodyByte {t s : State} {p : List Byte} {b : Byte} (h : t.Holds s .seekEnd p)
    (hb : b ≠ Config.endMark) (hroom : p.length < s.params.maxFrame) :
    ∃ u, Takes t [b] u ∧ u.Holds s .seekEnd (p ++ [b]) := by
  have hready : t.tableReady := h.inv.tableReady (by simp [h.phase])
  have hlen : t.flen < t.params.maxFrame := by rwa [← payload_length h.payload, h.params]
  obtain ⟨htakes, hinv⟩ := h.inv.takes_byte (b := b) (i := .seAccum b)
    (t := { t with
            report := none, fbuf := Memory.write t.fbuf t.flen b, flen := t.flen + 1
            crc := Machine.crcUpdate t.crc b })
    (decodeWord_input.mpr (.inr (.inl ⟨h.phase, by simp [hb]⟩)))
    fun us ps => seAccumCapturesByte (t.withAgents us ps) b h.phase hready hlen
  exact ⟨_, htakes, hinv, h.phase, payload_append h.payload rfl rfl, h.params, h.hq, h.delivered, h.reportLog⟩

/-- The bytes between the marker and the terminator, as long as they fit. -/
theorem State.Holds.takes_bodyBytes {t s : State} {p xs : List Byte} (h : t.Holds s .seekEnd p)
    (hend : Config.endMark ∉ xs) (hroom : p.length + xs.length ≤ s.params.maxFrame) :
    ∃ u, Takes t xs u ∧ u.Holds s .seekEnd (p ++ xs) := by
  induction xs generalizing t p with
  | nil => exact ⟨t, .nil t, by rwa [List.append_nil]⟩
  | cons x xs ih =>
    obtain ⟨hx, hxs⟩ := List.ne_and_not_mem_of_not_mem_cons hend
    rw [List.length_cons] at hroom
    obtain ⟨u, hu, hholds⟩ := h.takes_bodyByte (Ne.symm hx) (by omega)
    obtain ⟨v, hv, hholds'⟩ := ih hholds hxs (by rw [List.length_append, List.length_singleton]; omega)
    exact ⟨v, hu.append hv, by rwa [List.append_cons]⟩

/-- The terminator (41_frame_extractor.md R106). -/
theorem State.Holds.takes_endMark {t s : State} {p : List Byte} (h : t.Holds s .seekEnd p)
    (hroom : p.length < s.params.maxFrame) :
    ∃ u, Takes t [Config.endMark] u ∧ u.Holds s .trailer (p ++ [Config.endMark]) ∧ u.tlen = 0 := by
  have hready : t.tableReady := h.inv.tableReady (by simp [h.phase])
  have hlen : t.flen < t.params.maxFrame := by rwa [← payload_length h.payload, h.params]
  obtain ⟨htakes, hinv⟩ := h.inv.takes_byte (b := Config.endMark) (i := .seEnd)
    (t := { t with
            report := none, fbuf := Memory.write t.fbuf t.flen 0x21, flen := t.flen + 1
            crc := Machine.crcUpdate t.crc 0x21, tlen := 0, phase := .trailer })
    (decodeWord_input.mpr (.inr (.inl ⟨h.phase, rfl⟩)))
    fun us ps => seEndCapturesTerminator (t.withAgents us ps) h.phase hready hlen
  exact ⟨_, htakes, ⟨hinv, rfl, payload_append h.payload rfl rfl, h.params, h.hq, h.delivered, h.reportLog⟩, rfl⟩

/-- A legal payload is the marker, bytes that are no terminator, and the terminator. -/
theorem LegalPayload.exists_between {m : Nat} {p : List Byte} (h : LegalPayload m p) :
    ∃ xs, p = Config.startMark :: xs ++ [Config.endMark] ∧ Config.endMark ∉ xs := by
  obtain ⟨hlong, -, hstart, hend, hno⟩ := h
  obtain _ | ⟨a, r⟩ := p
  · cases hstart
  · cases hstart
    have hr : r ≠ [] := by
      rintro rfl
      simp at hlong
    refine ⟨r.dropLast, ?_, hno⟩
    rw [List.getLast?_cons_of_ne_nil hr] at hend
    rw [List.cons_append, List.dropLast_append_getLast? _ hend]

/-- The whole body. -/
theorem Inv.takes_body {s : State} (h : Inv s) (hp : s.phase = .seekStart) {body : List Byte}
    (hlegal : LegalPayload s.params.maxFrame body) :
    ∃ t, Takes s body t ∧ t.Holds s .trailer body ∧ t.tlen = 0 := by
  obtain ⟨xs, rfl, hxs⟩ := hlegal.exists_between
  have hfits := hlegal.fits
  simp only [List.cons_append, List.length_cons, List.length_append, List.length_nil] at hfits
  obtain ⟨t, ht, hholds⟩ := h.takes_startMark hp
  obtain ⟨u, hu, hholds'⟩ := hholds.takes_bodyBytes hxs (by rw [List.length_singleton]; omega)
  obtain ⟨v, hv, hend⟩ := hholds'.takes_endMark (by rw [List.length_append, List.length_singleton]; omega)
  exact ⟨v, (ht.append hu).append hv, hend⟩

/-! #### The trailer -/

/-- The trailer registers, digits and count, after one more byte (41_frame_extractor.md R110). -/
def trailerNext (r : Vector Byte 4 × BitVec 3) (b : Byte) : Vector Byte 4 × BitVec 3 :=
  (tdigNext r.1 r.2 b, tlenNext r.2)

/-- From an empty trailer, four digits and one byte more leave the four digits and the count 5. -/
theorem trailerNext_digits (d w : Vector Byte 4) (b : Byte) :
    (w.toList ++ [b]).foldl trailerNext (d, 0) = (w, 5) := by
  have hw : w.toList = [w[0], w[1], w[2], w[3]] := by
    obtain ⟨⟨xs⟩, hsize⟩ := w
    obtain ⟨a, b, c, e, rfl⟩ := List.length_eq_four.mp hsize
    rfl
  rw [hw]
  refine Prod.ext ?_ rfl
  ext i hi
  interval_cases i <;> simp [trailerNext, tdigNext, tlenNext]

/-- Bytes that are no line feed go to the trailer registers alone. -/
theorem State.Holds.takes_trailerBytes {t s : State} {p ys : List Byte} (h : t.Holds s .trailer p)
    (hys : Config.eol ∉ ys) :
    ∃ u, Takes t ys u ∧ u.Holds s .trailer p ∧ (u.tdig, u.tlen) = ys.foldl trailerNext (t.tdig, t.tlen) := by
  induction ys generalizing t with
  | nil => exact ⟨t, .nil t, h, rfl⟩
  | cons y ys ih =>
    obtain ⟨hy, hys⟩ := List.ne_and_not_mem_of_not_mem_cons hys
    obtain ⟨htakes, hinv⟩ := h.inv.takes_byte (b := y) (i := .trByte y)
      (t := { t with report := none, tdig := tdigNext t.tdig t.tlen y, tlen := tlenNext t.tlen })
      (decodeWord_input.mpr (.inr (.inr ⟨h.phase, by simp [Ne.symm hy]⟩)))
      fun us ps => exec_trByte (s := t.withAgents us ps) h.phase y
    obtain ⟨u, hu, hholds, hregs⟩ :=
      ih ⟨hinv, h.phase, payload_ok_congr h.payload rfl rfl, h.params, h.hq, h.delivered, h.reportLog⟩ hys
    exact ⟨u, htakes.append hu, hholds, hregs⟩

theorem hexDigit_ne_eol : ∀ n : BitVec 4, hexDigit n ≠ Config.eol := by decide

/-- The digits of the frame's checksum, and CR. -/
theorem State.Holds.takes_digits {t s : State} {p : List Byte} (h : t.Holds s .trailer p) (hl : t.tlen = 0) :
    ∃ u, Takes t ((hex4 (checksum p)).toList ++ [Config.cr]) u ∧ u.Holds s .trailer p ∧ u.tlen = 5 ∧
      u.tdig = hex4 u.crc := by
  have heol : Config.eol ∉ (hex4 (checksum p)).toList ++ [Config.cr] := by
    rw [List.mem_append, List.mem_singleton]
    rintro (hmem | hcr)
    · obtain ⟨n, hn⟩ := mem_hex4 hmem
      exact hexDigit_ne_eol n hn.symm
    · exact absurd hcr (by decide)
  obtain ⟨u, hu, hholds, hregs⟩ := h.takes_trailerBytes heol
  rw [hl, trailerNext_digits] at hregs
  obtain ⟨hdig, hlen⟩ := Prod.mk.inj hregs
  refine ⟨u, hu, hholds, hlen, ?_⟩
  rw [hdig, hholds.crc_eq (by simp [State.holdsFrame, hholds.phase])]

/-- The line feed, with room in the hand-off (41_frame_extractor.md R111). -/
theorem State.Holds.takes_eol_push {t s : State} {p : List Byte} (h : t.Holds s .trailer p) (hl : t.tlen = 5)
    (hd : t.tdig = hex4 t.crc) (hroom : s.hq.length < s.params.handoffDepth) :
    ∃ u, Takes t [Config.eol] u ∧ u.phase = .seekStart ∧ u.hq = s.hq ++ [p] ∧ u.delivered = s.delivered ∧
      u.reportLog = s.reportLog := by
  rw [← h.hq, ← h.params] at hroom
  obtain ⟨htakes, -⟩ := h.inv.takes_byte (b := Config.eol) (i := .trEol)
    (t := { t with report := none, hq := t.hq ++ [p], phase := .seekStart })
    (decodeWord_input.mpr (.inr (.inr ⟨h.phase, rfl⟩)))
    fun us ps => by
      obtain ⟨-, -, hpush, -⟩ := trEolVerifiesFrame (t.withAgents us ps) h.phase
      exact hpush hl hd hroom p (payload_ok_congr h.payload rfl rfl)
  exact ⟨_, htakes, rfl, congrArg (· ++ [p]) h.hq, h.delivered, h.reportLog⟩

/-- The line feed, with the hand-off full. -/
theorem State.Holds.takes_eol_wait {t s : State} {p : List Byte} (h : t.Holds s .trailer p) (hl : t.tlen = 5)
    (hd : t.tdig = hex4 t.crc) (hfull : s.params.handoffDepth ≤ s.hq.length) :
    ∃ u, Takes t [Config.eol] u ∧ u.Holds s .emitWait p := by
  rw [← h.hq, ← h.params] at hfull
  obtain ⟨htakes, hinv⟩ := h.inv.takes_byte (b := Config.eol) (i := .trEol)
    (t := { t with report := none, phase := .emitWait })
    (decodeWord_input.mpr (.inr (.inr ⟨h.phase, rfl⟩)))
    fun us ps => by
      obtain ⟨-, -, -, hwait⟩ := trEolVerifiesFrame (t.withAgents us ps) h.phase
      exact hwait hl hd hfull
  exact ⟨_, htakes, hinv, rfl, payload_ok_congr h.payload rfl rfl, h.params, h.hq, h.delivered, h.reportLog⟩

/-! #### The whole frame -/

/-- The frame up to its line feed. -/
theorem Inv.takes_frame {s : State} (h : Inv s) (hp : s.phase = .seekStart) {body : List Byte}
    (hlegal : LegalPayload s.params.maxFrame body) :
    ∃ t, t.Holds s .trailer body ∧ t.tlen = 5 ∧ t.tdig = hex4 t.crc ∧
      ∀ u, Takes t [Config.eol] u → Takes s (frameBytes body) u := by
  obtain ⟨t, ht, hholds, hl⟩ := h.takes_body hp hlegal
  obtain ⟨u, hu, hholds', hlen, hdig⟩ := hholds.takes_digits hl
  refine ⟨u, hholds', hlen, hdig, fun v hv => ?_⟩
  have hframe := (ht.append hu).append hv
  simpa [frameBytes] using hframe

/-- Settles O55: the run ends with the line feed, which finds room in the hand-off or none. -/
theorem validFrameYieldsItsBody : Obligations.ValidFrameYieldsItsBody := by
  unfold Obligations.ValidFrameYieldsItsBody
  intro s body rest turns hinv hp hlegal hup hturns
  obtain ⟨t, hholds, hl, hd, hframe⟩ := hinv.takes_frame hp hlegal
  have hself : s.withAgents ((frameBytes body).map byteSymbol ++ rest)
      (List.replicate (frameBytes body).length .input ++ turns) = s := by
    rw [← hup, ← hturns, withAgents_self]
  cases hfull : s.hqFull with
  | false =>
    have hroom : s.hq.length < s.params.handoffDepth :=
      Nat.lt_of_le_of_ne hinv.capacity (by simpa [State.hqFull] using hfull)
    obtain ⟨u, hu, hphase, hq, hdel, hlog⟩ := hholds.takes_eol_push hl hd hroom
    exact ⟨u.withAgents rest turns, hself ▸ hframe u hu rest turns, rfl, rfl, hlog, hdel, fun _ => ⟨hphase, hq⟩,
      by simp⟩
  | true =>
    have hno : s.params.handoffDepth ≤ s.hq.length := Nat.le_of_eq (beq_iff_eq.mp hfull).symm
    obtain ⟨u, hu, hwait⟩ := hholds.takes_eol_wait hl hd hno
    exact ⟨u.withAgents rest turns, hself ▸ hframe u hu rest turns, rfl, rfl, hwait.reportLog, hwait.delivered,
      by simp, fun _ => ⟨hwait.phase, hwait.hq, payload_ok_congr hwait.payload rfl rfl⟩⟩

end Sys2Proof.Machine

namespace Sys2Proof.Machine

/-! ### The operations of the hand-off (42_handoff_control.md R132, R133) -/

/-- Settles O30. -/
theorem emitPushEmitsWhenRoom : Obligations.EmitPushEmitsWhenRoom := by
  unfold Obligations.EmitPushEmitsWhenRoom
  intro s hp
  have hr : s.phase.isReserved = false := by simp [hp]
  exact ⟨fun hroom p hpay => execEmitPush_next.mpr ⟨hr, .inl ⟨hp, hroom, p, hpay, rfl⟩⟩,
    fun hfull => execEmitPush_next.mpr ⟨hr, .inr ⟨.inr (Nat.not_lt_of_le hfull), rfl⟩⟩⟩

/-- Settles O31. -/
theorem popDeliversHead : Obligations.PopDeliversHead := by
  unfold Obligations.PopDeliversHead
  intro s
  exact ⟨fun p rest hq => execPop_next.mpr (.inl ⟨p, rest, hq, rfl⟩), fun hq => execPop_next.mpr (.inr ⟨hq, rfl⟩),
    observedFault_of_not_reserved⟩

/-! ### What enters the hand-off (42_handoff_control.md R138) -/

/-- Only TR_EOL's push arm and EMIT_PUSH make the hand-off longer, by the captured payload. -/
theorem OpEffect.pushed {i : Instr} {s t : State} {p : List Byte} (h : OpEffect i s t) (hq : t.hq = s.hq ++ [p]) :
    s.payload = .ok p ∧
      (s.phase = .emitWait ∨ (s.phase = .trailer ∧ s.tlen = 5 ∧ digitsMatch s.tdig s.crc = true)) := by
  cases h with
  | emit hp _ hpay =>
    obtain rfl : _ = p := by simpa using hq
    exact ⟨hpay, .inl hp⟩
  | verified hp hl hd _ hpay =>
    obtain rfl : _ = p := by simpa using hq
    exact ⟨hpay, .inr ⟨hp, hl, hd⟩⟩
  | reset => simp at hq
  | pop hcons =>
    have hlen := congrArg List.length hq
    simp [hcons] at hlen
    omega
  | _ => cases List.self_eq_append_right.mp hq

/-- A payload that an operation pushes from a good state has been verified. -/
theorem OpEffect.pushes_verified {i : Instr} {s t : State} {p : List Byte} (h : OpEffect i s t) (hs : Inv s)
    (hq : t.hq = s.hq ++ [p]) : LegalPayload s.params.maxFrame p ∧ s.tlen = 5 ∧ s.tdig = hex4 (checksum p) := by
  obtain ⟨hpay, hphase⟩ := h.pushed hq
  have hholds : s.holdsFrame = true := by obtain hp | ⟨hp, -⟩ := hphase <;> simp [State.holdsFrame, hp]
  obtain ⟨q, hcap⟩ := hs.captured hholds
  rw [hcap.unique hpay, ← hcap.crc]
  obtain hp | ⟨hp, hl, hd⟩ := hphase
  · exact ⟨hs.complete (.inr hp) q hcap.payload, hs.waiting hp⟩
  · exact ⟨hs.complete (.inl hp) q hcap.payload, hl, eq_hex4_of_digitsMatch hd⟩

/-- Settles O33: a turn that passes or records a fault pushes nothing. -/
theorem onlyVerifiedPayloadsEnter : Obligations.OnlyVerifiedPayloadsEnter := by
  unfold Obligations.OnlyVerifiedPayloadsEnter
  intro s t hs h p hq
  obtain rfl | ⟨i, -, he⟩ | ⟨i, f, -, -, rfl⟩ := step_effect h
  · simp at hq
  · exact he.pushes_verified (hs.dropTurn.consumeSymbol s.nextPort) hq
  · simp at hq

end Sys2Proof.Machine

namespace Sys2Proof.Machine

/-! ### The end of the sequence (42_handoff_control.md R135, R137) -/

/-- POP moves at most the head of the hand-off to the deliveries. -/
theorem execPop_eq (s : State) :
    execPop s = .next { s.begin with hq := s.hq.tail, delivered := s.delivered ++ s.hq.take 1 } := by
  refine execPop_next.mpr ?_
  cases hq : s.hq with
  | nil => exact .inr ⟨rfl, by simp [State.begin, hq]⟩
  | cons p rest => exact .inl ⟨p, rest, rfl, rfl⟩

/-- Settles O36: a POP turn moves the head of the hand-off, and every other turn but a RESET is disabled. -/
theorem doneIsTerminal : Obligations.DoneIsTerminal := by
  unfold Obligations.DoneIsTerminal
  intro s hp hreset
  have hinternal : s.enabled .internal = false := by simp [State.enabled, hp]
  have hready : s.inReady = false := by simp [State.inReady, hp]
  have hinput : s.enabled .input = false := by simp [State.enabled, hready]
  refine ⟨hinternal, hready, ?_⟩
  cases hturn : s.nextPort with
  | pop =>
    exact ⟨_, (step_of_pop hturn).trans (execPop_eq _), hp, rfl, rfl, by simp, fun _ => ⟨rfl, rfl⟩⟩
  | reset => exact absurd hturn hreset
  | internal | input =>
    exact ⟨_, disabledTurnWaits s (by simp [hp]) (by rwa [hturn]), hp, rfl, rfl, fun _ => rfl, by simp⟩

/-- Settles O35: the end of the sequence is DONE with nothing to deliver, where no turn but a RESET leads elsewhere. -/
theorem endOfSequenceStaysUntilReset : Obligations.EndOfSequenceStaysUntilReset := by
  unfold Obligations.EndOfSequenceStaysUntilReset
  intro s t hs hend hreset h
  obtain ⟨hdone, hempty⟩ : s.seqDone = true ∧ s.hq = [] := by simpa [State.outEnd] using hend
  obtain ⟨-, -, u, hu, hphase, -, -, hother, hpop⟩ := doneIsTerminal s (hs.finished.mp hdone) hreset
  cases hu.symm.trans h
  have hdone' : t.seqDone = true := (everyStepKeepsInvariants s t hs h).finished.mpr hphase
  have hkept : t.hq = [] ∧ t.delivered = s.delivered := by
    by_cases hp : s.nextPort = .pop
    · simpa [hempty] using hpop hp
    · rw [hother hp]
      exact ⟨hempty, rfl⟩
  exact ⟨by simp [State.outEnd, hdone', hkept], hkept.2⟩

end Sys2Proof.Machine

namespace Sys2Proof.Machine

/-! ### A good state meets no fault (60_exceptions.md R164) -/

/-- Settles O53: every operation is total on good states, and a step leads to a good state again. -/
theorem goodStatesNeverFault : Obligations.GoodStatesNeverFault := by
  unfold Obligations.GoodStatesNeverFault
  intro s hs
  refine ⟨fun i => ?_, ?_⟩
  · obtain ⟨t, ht⟩ := hs.exec_total i
    exact ⟨t, ht, (exec_effect ht).noFault hs⟩
  · obtain ⟨t, ht⟩ := step_total s
    exact ⟨t, ht, (everyStepKeepsInvariants s t hs ht).noFault⟩

end Sys2Proof.Machine

namespace Sys2Proof.Machine

/-! ### A fault mark is kept (60_exceptions.md R164) -/

theorem OpEffect.keeps_faultMark {i : Instr} {s t : State} {f : Fault} (h : OpEffect i s t)
    (hf : s.faultMark = some f) : t.faultMark = some f := by
  cases h with
  | reset | pop _ | popEmpty _ => exact observedFault_of_mark hf
  | _ => exact hf

theorem step_keeps_faultMark {s t : State} {f : Fault} (h : step s = .next t) (hf : s.faultMark = some f) :
    t.faultMark = some f := by
  obtain rfl | ⟨i, -, he⟩ | ⟨i, g, -, -, rfl⟩ := step_effect h
  · exact observedFault_of_mark hf
  · exact he.keeps_faultMark hf
  · simp [State.recordFault, State.dropTurn, hf]

theorem Reaches.keeps_faultMark {s t : State} {f : Fault} (h : Reaches s t) (hf : s.faultMark = some f) :
    t.faultMark = some f := by
  induction h with
  | refl => exact hf
  | tail _ hstep ih => exact step_keeps_faultMark hstep ih

theorem not_finished_of_mark {s : State} {f : Fault} (h : s.faultMark = some f) : s.isFinished = false := by
  simp [State.isFinished, State.halted, observedFault_of_mark h]

/-- Settles O44. -/
theorem faultMarkIsPermanent : Obligations.FaultMarkIsPermanent := by
  unfold Obligations.FaultMarkIsPermanent
  intro s t hreach hmark
  obtain ⟨f, hf⟩ := Option.ne_none_iff_exists'.mp hmark
  have ht : t.faultMark = some f := hreach.keeps_faultMark hf
  exact ⟨ht.trans hf.symm, not_finished_of_mark ht⟩

end Sys2Proof.Machine

namespace Sys2Proof.Machine

/-! ### The reports (60_exceptions.md R150, R152) -/

theorem reportCode_ne_zero (k : Report) : k.code ≠ 0#3 := by cases k <;> decide

theorem reportCode_le_four (k : Report) : k.code.toNat ≤ 4 := by cases k <;> decide

/-- Settles O39. -/
theorem reportCodesAreOneToFour : Obligations.ReportCodesAreOneToFour := by
  unfold Obligations.ReportCodesAreOneToFour
  refine ⟨fun s => ?_, fun s => ?_, rfl, rfl, rfl, rfl⟩
  · cases hr : s.report with
    | none => simp [State.repCode, State.repValid, hr]
    | some k => simp [State.repCode, State.repValid, hr, reportCode_ne_zero k]
  · cases hr : s.report with
    | none => simp [State.repCode, hr]
    | some k => simpa [State.repCode, hr] using reportCode_le_four k

/-- Settles O38: a turn that passes or records a fault shows nothing, and an operation logs what it shows. -/
theorem historyGrowsByShownReport : Obligations.HistoryGrowsByShownReport := by
  unfold Obligations.HistoryGrowsByShownReport
  intro s t h
  obtain rfl | ⟨i, -, he⟩ | ⟨i, f, -, -, rfl⟩ := step_effect h
  · simp
  · simpa using he.reportLog_eq
  · simp

/-- Settles O37: the seven arms that report; every other arm leaves the report port quiet. -/
theorem reportsNameTheirCause : Obligations.ReportsNameTheirCause := by
  unfold Obligations.ReportsNameTheirCause
  intro i s t k h hk
  cases exec_effect h with
  | endEos _ => cases hk; exact .inl ⟨rfl, rfl⟩
  | wrongLength _ hl => cases hk; exact .inr (.inl ⟨rfl, .inl ⟨rfl, hl⟩⟩)
  | trailerEos _ => cases hk; exact .inr (.inl ⟨rfl, .inr rfl⟩)
  | wrongDigits _ hl hd =>
    cases hk
    have hne : s.tdig ≠ hex4 s.crc := (digitsMatch_iff _ _).not.mp (Bool.eq_false_iff.mp hd)
    exact .inr (.inr (.inl ⟨rfl, rfl, hl, hne⟩))
  | terminateOverflow _ hm => cases hk; exact .inr (.inr (.inr ⟨rfl, hm, .inl rfl⟩))
  | accumOverflow _ hm => cases hk; exact .inr (.inr (.inr ⟨rfl, hm, .inr ⟨_, rfl⟩⟩))
  | _ => cases hk

/-! #### The recovery (60_exceptions.md R152) -/

/-- An operation that reports is one of the upstream's, and does nothing but recover: to DONE where its word has the
end-of-stream bit, and to SEEK_START where it has not. -/
theorem OpEffect.recovers {i : Instr} {s t : State} {k : Report} (h : OpEffect i s t) (hk : t.report = some k) :
    opPort (encode i) = .input ∧
      ((t = s.recover k .seekStart ∧ (encode i).getLsbD 8 = false) ∨
        (t = (s.recover k .done).endStream ∧ (encode i).getLsbD 8 = true)) := by
  cases h with
  | endEos _ | trailerEos _ => cases hk; exact ⟨rfl, .inr ⟨rfl, rfl⟩⟩
  | wrongLength _ _ | wrongDigits _ _ _ | terminateOverflow _ _ => cases hk; exact ⟨rfl, .inl ⟨rfl, rfl⟩⟩
  | accumOverflow _ _ =>
    cases hk
    rw [encode_eq_encodeByFields]
    exact ⟨opPort_opWordOf .., .inl ⟨rfl, by simp [encodeByFields]⟩⟩
  | _ => cases hk

/-- The turn of an input operation consumes a symbol, which has the operation's end-of-stream bit. -/
theorem consumed_of_fetch {s : State} {p : Port} {i : Instr} (h : s.fetch p = some i)
    (hport : opPort (encode i) = .input) :
    ∃ x, s.upstream = x :: (s.consumeSymbol p).upstream ∧ x.getLsbD 8 = (encode i).getLsbD 8 := by
  obtain ⟨-, hp, -, heos, -⟩ := decodedOperationsAreWellFormed _ _ (fetch_some h)
  obtain rfl : p = .input := by rw [← hport, hp, opWord_eq, opPort_opWordOf]
  obtain ⟨-, hoffered⟩ := Bool.or_eq_false_iff.mp (not_void_of_fetch h)
  cases hup : s.upstream with
  | nil => simp [State.inValid, hup] at hoffered
  | cons x rest =>
    have hbit : (encode i).getLsbD 8 = (s.opWord .input).getLsbD 8 := heos (opPort_opWordOf ..)
    exact ⟨x, by simp [hup], by simpa [opWord_eq, hup] using hbit.symm⟩

/-- Settles O40: only an operation reports, and it recovers from the symbol that its turn has consumed. -/
theorem reportedFrameIsDropped : Obligations.ReportedFrameIsDropped := by
  unfold Obligations.ReportedFrameIsDropped
  intro s t h hreport
  obtain ⟨k, hk⟩ := Option.ne_none_iff_exists'.mp hreport
  obtain ⟨i, hfetch, he | ⟨f, -, rfl⟩⟩ | ⟨-, rfl⟩ := step_next.mp h
  · obtain ⟨hport, hrecovers⟩ := (exec_effect he).recovers hk
    obtain ⟨x, hup, hbit⟩ := consumed_of_fetch hfetch hport
    obtain ⟨rfl, heos⟩ | ⟨rfl, heos⟩ := hrecovers <;> rw [heos] at hbit
    · exact ⟨.inl rfl, rfl, rfl, rfl, rfl, rfl, rfl, rfl, x, hup, by rw [hbit]; simp⟩
    · exact ⟨.inr rfl, rfl, rfl, rfl, rfl, rfl, rfl, rfl, x, hup, iff_of_true rfl hbit⟩
  · cases hk
  · cases hk

end Sys2Proof.Machine

namespace Sys2Proof.Machine

/-! ### The block beside another consumer (42_handoff_control.md R133, 70_reset_and_hazards.md R183)

An operation of the engine or the upstream looks at the hand-off for room only, and never at the deliveries, the agenda
or the report shown before. -/

/-- `s` with another content of the hand-off, other deliveries and another agenda. -/
def State.withOutput (s : State) (q d : List (List Byte)) (a : List Port) : State :=
  { s with hq := q, delivered := d, agenda := a }

/-- The report shown before an operation of the engine or the upstream makes no difference to it. -/
theorem exec_of_report {i : Instr} (hi : homePhase i ≠ none) (s : State) (r : Option Report) :
    exec i { s with report := r } = exec i s := by
  cases i with
  | reset | pop => exact absurd rfl hi
  | _ => rfl

/-- An operation whose effect is the same beside another consumer is itself the same. -/
theorem engineStep_withOutput {s t : State} {p : Phase} {effect : State → Except Fault State}
    {q d : List (List Byte)} {a : List Port} (h : s.engineStep p effect = .next t)
    (he : ∀ s, effect s = .ok t → effect (s.withOutput q d a) = .ok (t.withOutput q d a)) :
    (s.withOutput q d a).engineStep p effect = .next (t.withOutput q d a) := by
  obtain ⟨hr, ⟨hp, ht⟩ | ⟨hp, rfl⟩⟩ := engineStep_cases.mp h
  · exact engineStep_cases.mpr ⟨hr, .inl ⟨hp, he _ ht⟩⟩
  · exact engineStep_cases.mpr ⟨hr, .inr ⟨hp, rfl⟩⟩

/-- The nine operations that push nothing do not see the consumer at all. -/
theorem exec_withOutput {i : Instr} {s t : State} (h : exec i s = .next t) (hi : homePhase i ≠ none)
    (heol : i ≠ .trEol) (hpush : i ≠ .emitPush) (q d : List (List Byte)) (a : List Port) :
    exec i (s.withOutput q d a) = .next (t.withOutput q d a) := by
  cases i with
  | reset | pop => exact absurd rfl hi
  | trEol => exact absurd rfl heol
  | emitPush => exact absurd rfl hpush
  | initBuild | ssEos | ssDiscard _ | seEos | trEos | trByte _ =>
    simp only [exec, execInitBuild, execSsEos, execSsDiscard, execSeEos, execTrEos, execTrByte] at h ⊢
    exact engineStep_withOutput h fun _ ht => by cases ht; rfl
  | ssStart =>
    obtain ⟨hr, ⟨hp, hm, c, hc, rfl⟩ | ⟨hp, rfl⟩⟩ := execSsStart_next.mp h
    · exact execSsStart_next.mpr ⟨hr, .inl ⟨hp, hm, c, hc, rfl⟩⟩
    · exact execSsStart_next.mpr ⟨hr, .inr ⟨hp, rfl⟩⟩
  | seEnd =>
    obtain ⟨hr, ⟨hp, hm, rfl⟩ | ⟨hp, hm, c, hc, rfl⟩ | ⟨hp, rfl⟩⟩ := execSeEnd_next.mp h
    · exact execSeEnd_next.mpr ⟨hr, .inl ⟨hp, hm, rfl⟩⟩
    · exact execSeEnd_next.mpr ⟨hr, .inr (.inl ⟨hp, hm, c, hc, rfl⟩)⟩
    · exact execSeEnd_next.mpr ⟨hr, .inr (.inr ⟨hp, rfl⟩)⟩
  | seAccum b =>
    obtain ⟨hr, ⟨hp, hm, rfl⟩ | ⟨hp, hm, c, hc, rfl⟩ | ⟨hp, rfl⟩⟩ := execSeAccum_next.mp h
    · exact execSeAccum_next.mpr ⟨hr, .inl ⟨hp, hm, rfl⟩⟩
    · exact execSeAccum_next.mpr ⟨hr, .inr (.inl ⟨hp, hm, c, hc, rfl⟩)⟩
    · exact execSeAccum_next.mpr ⟨hr, .inr (.inr ⟨hp, rfl⟩)⟩

/-- Beside a hand-off `q` with room, the operation that led from `s` to `t` pushes what it pushed there: `ps`, which is
one payload or none. -/
def State.PushesAlike (s t : State) (i : Instr) (q d : List (List Byte)) (a : List Port) : Prop :=
  ∃ ps, t.hq = s.hq ++ ps ∧ exec i (s.withOutput q d a) = .next (t.withOutput (q ++ ps) d a)

/-- The hand-off of `s` is full, and `t` holds a verified payload back in EMIT_WAIT. Beside a hand-off `q` with room the
payload enters at once. -/
def State.PushesHeld (s t : State) (i : Instr) (q d : List (List Byte)) (a : List Port) : Prop :=
  s.hqFull = true ∧ (i = .trEol ∨ i = .emitPush) ∧ t.phase = .emitWait ∧ t.hq = s.hq ∧
    ∃ p, t.payload = .ok p ∧
      exec i (s.withOutput q d a) = .next ({ t with phase := .seekStart }.withOutput (q ++ [p]) d a)

theorem State.PushesAlike.of_hq_eq {s t : State} {i : Instr} {q d : List (List Byte)} {a : List Port}
    (hq : t.hq = s.hq) (h : exec i (s.withOutput q d a) = .next (t.withOutput q d a)) : s.PushesAlike t i q d a :=
  ⟨[], by rw [hq, List.append_nil], by rw [h, List.append_nil]⟩

theorem Inv.hqFull_of_no_room {s : State} (h : Inv s) (hroom : ¬ s.hq.length < s.params.handoffDepth) :
    s.hqFull = true :=
  beq_iff_eq.mpr (Nat.le_antisymm h.capacity (Nat.le_of_not_lt hroom))

theorem Inv.trEol_withOutput {s t : State} (h : Inv s) (ht : exec .trEol s = .next t) {q : List (List Byte)}
    (hroom : q.length < s.params.handoffDepth) (d : List (List Byte)) (a : List Port) :
    s.PushesAlike t .trEol q d a ∨ s.PushesHeld t .trEol q d a := by
  obtain ⟨hr, ht⟩ := execTrEol_next.mp ht
  obtain ⟨hp, hl, rfl⟩ | ⟨hp, hl, hd, rfl⟩ | ⟨hp, hl, hd, hq, p, hpay, rfl⟩ | ⟨hp, hl, hd, hq, rfl⟩ | ⟨hp, rfl⟩ := ht
  · exact .inl (.of_hq_eq rfl (execTrEol_next.mpr ⟨hr, .inl ⟨hp, hl, rfl⟩⟩))
  · exact .inl (.of_hq_eq rfl (execTrEol_next.mpr ⟨hr, .inr (.inl ⟨hp, hl, hd, rfl⟩)⟩))
  · have hpay' : (s.withOutput q d a).payload = .ok p := payload_ok_congr hpay rfl rfl
    exact .inl ⟨[p], rfl, execTrEol_next.mpr ⟨hr, .inr (.inr (.inl ⟨hp, hl, hd, hroom, p, hpay', rfl⟩))⟩⟩
  · obtain ⟨p, hpay⟩ := h.reads_payload (by simp [State.holdsFrame, hp])
    have hpay' : (s.withOutput q d a).payload = .ok p := payload_ok_congr hpay rfl rfl
    exact .inr ⟨h.hqFull_of_no_room hq, .inl rfl, rfl, rfl, p, payload_ok_congr hpay rfl rfl,
      execTrEol_next.mpr ⟨hr, .inr (.inr (.inl ⟨hp, hl, hd, hroom, p, hpay', rfl⟩))⟩⟩
  · exact .inl (.of_hq_eq rfl (execTrEol_next.mpr ⟨hr, .inr (.inr (.inr (.inr ⟨hp, rfl⟩)))⟩))

theorem Inv.emitPush_withOutput {s t : State} (h : Inv s) (ht : exec .emitPush s = .next t) {q : List (List Byte)}
    (hroom : q.length < s.params.handoffDepth) (d : List (List Byte)) (a : List Port) :
    s.PushesAlike t .emitPush q d a ∨ s.PushesHeld t .emitPush q d a := by
  obtain ⟨hr, ⟨hp, hq, p, hpay, rfl⟩ | ⟨hno, rfl⟩⟩ := execEmitPush_next.mp ht
  · have hpay' : (s.withOutput q d a).payload = .ok p := payload_ok_congr hpay rfl rfl
    exact .inl ⟨[p], rfl, execEmitPush_next.mpr ⟨hr, .inl ⟨hp, hroom, p, hpay', rfl⟩⟩⟩
  · by_cases hp : s.phase = .emitWait
    · obtain ⟨p, hpay⟩ := h.reads_payload (by simp [State.holdsFrame, hp])
      have hpay' : (s.withOutput q d a).payload = .ok p := payload_ok_congr hpay rfl rfl
      exact .inr ⟨h.hqFull_of_no_room (hno.resolve_left (not_not_intro hp)), .inr rfl, hp, rfl, p,
        payload_ok_congr hpay rfl rfl, execEmitPush_next.mpr ⟨hr, .inl ⟨hp, hroom, p, hpay', rfl⟩⟩⟩
    · exact .inl (.of_hq_eq rfl (execEmitPush_next.mpr ⟨hr, .inr ⟨.inl hp, rfl⟩⟩))

/-- All that an operation of the engine or the upstream can do beside a consumer that has left room. -/
theorem Inv.exec_withOutput_of_room {i : Instr} {s t : State} (h : Inv s) (ht : exec i s = .next t)
    (hi : homePhase i ≠ none) {q : List (List Byte)} (hroom : q.length < s.params.handoffDepth)
    (d : List (List Byte)) (a : List Port) : s.PushesAlike t i q d a ∨ s.PushesHeld t i q d a := by
  by_cases heol : i = .trEol
  · subst heol
    exact h.trEol_withOutput ht hroom d a
  · by_cases hpush : i = .emitPush
    · subst hpush
      exact h.emitPush_withOutput ht hroom d a
    · have hq : t.hq = s.hq := by
        refine (exec_effect ht).hq_eq ?_ heol hpush ?_
        · rintro rfl; exact hi rfl
        · rintro rfl; exact hi rfl
      exact .inl (.of_hq_eq hq (exec_withOutput ht hi heol hpush q d a))

/-! #### A POP taken before or after (70_reset_and_hazards.md R183) -/

/-- Settles O57: the POP leaves room, beside which the operation pushes what it pushed, or what it had to hold back. -/
theorem popCommutesWithOtherSteps : Obligations.PopCommutesWithOtherSteps := by
  unfold Obligations.PopCommutesWithOtherSteps
  intro s t u v i h hne hi ht hu hv
  obtain ⟨p, rest, hq⟩ := List.exists_cons_of_ne_nil hne
  have hroom : rest.length < s.params.handoffDepth := by simpa [hq] using h.capacity
  have he : OpEffect i s t := exec_effect ht
  have hdel : t.delivered = s.delivered := he.delivered_eq fun hpop => hi (hpop ▸ rfl)
  have hreserved : t.phase.isReserved = false := he.not_reserved h.phase
  have hpop := execPop_eq t
  rw [begin_eq hreserved] at hpop
  have hpop' := execPop_eq s
  rw [begin_eq h.phase, hq] at hpop'
  cases hpop'.symm.trans hu
  replace hv : exec i (s.withOutput rest (s.delivered ++ [p]) s.agenda) = .next v :=
    (exec_of_report hi _ none).symm.trans hv
  obtain ⟨ps, hps, hx⟩ | ⟨hfull, hi', hwait, hkept, p', hpay, hx⟩ :=
    h.exec_withOutput_of_room ht hi hroom (s.delivered ++ [p]) s.agenda
  · cases hv.symm.trans hx
    refine .inl ⟨_, hpop, ?_⟩
    simp [State.withOutput, hps, hq, hdel, he.agenda_eq]
  · cases hv.symm.trans hx
    refine .inr ⟨hfull, hi', _, _, hpop, execEmitPush_next.mpr ⟨hreserved, .inl ⟨hwait, ?_, p', ?_, rfl⟩⟩, ?_⟩
    · simpa [hkept, hq, he.params_eq] using hroom
    · exact payload_ok_congr hpay rfl rfl
    · simp [State.withOutput, hkept, hq, hdel, he.agenda_eq]

end Sys2Proof.Machine

namespace Sys2Proof.Machine

/-! ### Whose turn it can be (30_encoding.md R61, 70_reset_and_hazards.md R183) -/

/-- Settles O49: the engine steps in INIT and EMIT_WAIT, where the block is not ready for input. -/
theorem internalAndInputExclude : Obligations.InternalAndInputExclude := by
  unfold Obligations.InternalAndInputExclude
  intro s h
  simp only [State.enabled, Bool.and_eq_true, Bool.or_eq_true, beq_iff_eq] at h
  have hready : s.inReady = false := by
    obtain ⟨-, hp | ⟨hp, -⟩⟩ := h <;> simp [State.inReady, hp]
  simp [State.enabled, hready]

/-- Settles O50. -/
theorem emptyAgendaIsEager : Obligations.EmptyAgendaIsEager := by
  unfold Obligations.EmptyAgendaIsEager
  intro s h
  have hidle : s.nextPort = s.idlePort := by simp [State.nextPort, h]
  refine ⟨fun hi => ?_, fun hi hu => ?_, fun _ _ => rfl⟩
  · rw [hidle, State.idlePort, if_pos hi]
  · rw [hidle, State.idlePort, if_neg (by simp [hi]), if_pos hu]

end Sys2Proof.Machine

namespace Sys2Proof.Machine

/-! ### RESET (70_reset_and_hazards.md R170) -/

/-- Settles O41: each value is written in `State.clearBlock`, and the signals follow from them. -/
theorem resetClearsBlock : Obligations.ResetClearsBlock := by
  unfold Obligations.ResetClearsBlock
  intro s
  exact ⟨_, rfl, rfl, rfl, rfl, rfl, rfl, rfl, rfl, rfl, rfl, rfl, rfl, rfl, rfl, rfl, rfl, rfl, rfl,
    fun k => ⟨memory_read_nil k, memory_read_nil k⟩⟩

end Sys2Proof.Machine

namespace Sys2Proof.Machine

/-! ### What a step of a good state can do -/

/-- A step from a good state passes, or runs the operation that its turn selects. -/
theorem Inv.step_cases {s t : State} (h : Inv s) (hstep : step s = .next t) :
    t = { s with report := none, agenda := s.agenda.tail } ∨
      ∃ i, s.dropTurn.fetch s.nextPort = some i ∧ exec i (s.dropTurn.consumeSymbol s.nextPort) = .next t := by
  obtain ⟨i, hf, he | ⟨f, hfault, -⟩⟩ | ⟨-, rfl⟩ := step_next.mp hstep
  · exact .inr ⟨i, hf, he⟩
  · obtain ⟨u, hu⟩ := (h.dropTurn.consumeSymbol s.nextPort).exec_total i
    cases hu.symm.trans hfault
  · exact .inl (begin_eq h.phase)

theorem Inv.step_agenda {s t : State} (h : Inv s) (hstep : step s = .next t) : t.agenda = s.agenda.tail := by
  obtain rfl | ⟨i, -, he⟩ := h.step_cases hstep
  · rfl
  · exact (exec_effect he).agenda_eq

/-- An operation that a turn of the engine or the upstream selects is one of the phase that the block is in. -/
theorem homePhase_of_decode {s : State} {p : Port} {i : Instr} (hp : p = .internal ∨ p = .input)
    (h : decodeWord (s.opWord p) = .ok i) : homePhase i = some s.phase := by
  rw [opWord_eq] at h
  obtain rfl | rfl := hp
  · obtain ⟨hphase, rfl⟩ | ⟨hphase, rfl⟩ := decodeWord_internal.mp h <;> rw [hphase] <;> rfl
  · obtain ⟨e, d, hx⟩ := exists_symbolOf (s.upstream.headD 0)
    rw [if_pos rfl, hx] at h
    obtain ⟨hphase, rfl⟩ | ⟨hphase, rfl⟩ | ⟨hphase, rfl⟩ := decodeWord_input.mp h <;> rw [hphase] <;>
      split_ifs <;> rfl

theorem Inv.handoffDepth_pos {s : State} (h : Inv s) : 0 < s.params.handoffDepth := by
  have hw := h.params
  simp only [Params.wf, Bool.and_eq_true, decide_eq_true_eq] at hw
  omega

/-! ### The outputs do not depend on the schedule (70_reset_and_hazards.md R183)

Two runs are compared with one run of a block whose consumer takes every payload at once, and which therefore never
waits. -/

/-- The payload that EMIT_WAIT holds back. -/
def State.held (s : State) : List (List Byte) := if s.phase = .emitWait then s.payload.toOption.toList else []

/-- `s` after a consumer has taken all it has to give: the hand-off is empty and no payload is held back. The report
shown and the agenda are left out. -/
def State.drain (s : State) : State :=
  { s with
    phase := if s.phase = .emitWait then .seekStart else s.phase
    report := none, agenda := [], hq := [], delivered := s.delivered ++ s.hq ++ s.held }

/-- The one next state of a drained block, drained again: the engine or the upstream takes the step that it has. -/
def Advances (k k' : State) : Prop :=
  ∃ p i t, (p = .internal ∨ p = .input) ∧ k.enabled p = true ∧ decodeWord (k.opWord p) = .ok i ∧
    exec i (k.consumeSymbol p) = .next t ∧ k' = t.drain

/-- The engine and the upstream never both have a step. -/
theorem advances_rightUnique : Relator.RightUnique Advances := by
  rintro k _ _ ⟨p, i, t, hp, hen, hword, ht, rfl⟩ ⟨p', i', t', hp', hen', hword', ht', rfl⟩
  have hport : p = p' := by
    obtain rfl | rfl := hp <;> obtain rfl | rfl := hp'
    · rfl
    · cases (internalAndInputExclude k hen).symm.trans hen'
    · cases (internalAndInputExclude k hen').symm.trans hen
    · rfl
  subst hport
  cases hword.symm.trans hword'
  cases ht.symm.trans ht'
  rfl

theorem not_advances_of_done {k : State} (hk : k.phase = .done) (k' : State) : ¬ Advances k k' := by
  rintro ⟨p, i, t, rfl | rfl, hen, -⟩ <;> simp [State.enabled, State.inReady, hk] at hen

theorem held_eq_nil {s : State} (h : s.phase ≠ .emitWait) : s.held = [] := if_neg h

theorem held_eq_payload {s : State} {p : List Byte} (h : s.phase = .emitWait) (hp : s.payload = .ok p) :
    s.held = [p] := by
  rw [State.held, if_pos h, hp]
  rfl

theorem held_congr {s t : State} (hp : t.phase = s.phase) (hb : t.fbuf = s.fbuf) (hl : t.flen = s.flen) :
    t.held = s.held := by
  rw [State.held, State.held, hp, payload_congr hb hl]

/-- A consumer that takes payloads earlier or later leaves the same drained state. -/
theorem drain_withOutput {s : State} {q d : List (List Byte)} (h : d ++ q = s.delivered ++ s.hq) (a : List Port)
    (r : Option Report) : ({ s with report := r }.withOutput q d a).drain = s.drain := by
  have hheld : ({ s with report := r }.withOutput q d a).held = s.held := held_congr rfl rfl rfl
  simp only [State.drain, hheld, ← h]
  rfl

theorem drain_of_turn (s : State) (a : List Port) (r : Option Report) :
    ({ s with report := r, agenda := a } : State).drain = s.drain :=
  drain_withOutput (q := s.hq) (d := s.delivered) rfl a r

/-- A payload that leaves EMIT_WAIT for the hand-off leaves the same drained state. -/
theorem drain_of_push {s : State} {q d : List (List Byte)} {p : List Byte} (hp : s.phase = .emitWait)
    (hpay : s.payload = .ok p) (h : d ++ q = s.delivered ++ s.hq) (a : List Port) (r : Option Report) :
    ({ s with report := r, phase := .seekStart }.withOutput (q ++ [p]) d a).drain = s.drain := by
  have hnone : ({ s with report := r, phase := .seekStart }.withOutput (q ++ [p]) d a).held = [] := rfl
  have hdel : d ++ (q ++ [p]) = s.delivered ++ s.hq ++ [p] := by rw [← h, List.append_assoc]
  simp only [State.drain, hnone, held_eq_payload hp hpay]
  simp [State.withOutput, hp, hdel]

theorem drain_eq {s : State} (h : s.phase ≠ .emitWait) :
    s.drain = { s.withOutput [] (s.delivered ++ s.hq) [] with report := none } := by
  simp [State.drain, State.withOutput, held_eq_nil h, h]

/-- Outside EMIT_WAIT the engine and the upstream have a step whatever the hand-off holds (30_encoding.md R61). -/
theorem enabled_withOutput {s : State} {p : Port} (hp : p = .internal ∨ p = .input) (hwait : s.phase ≠ .emitWait)
    (q d : List (List Byte)) (a : List Port) (r : Option Report) :
    ({ s.withOutput q d a with report := r } : State).enabled p = s.enabled p := by
  obtain rfl | rfl := hp
  · have hphase : (s.phase == .emitWait) = false := by simpa using hwait
    simp only [State.enabled, State.withOutput, hphase, Bool.false_and]
    rfl
  · rfl

/-- Outside EMIT_WAIT the step of the engine or the upstream is the one that the drained block takes. -/
theorem Inv.drain_advances {s t : State} {p : Port} {i : Instr} (h : Inv s) (hp : p = .internal ∨ p = .input)
    (hwait : s.phase ≠ .emitWait) (hen : s.enabled p = true) (hword : decodeWord (s.opWord p) = .ok i)
    (ht : exec i (s.consumeSymbol p) = .next t) : Advances s.drain t.drain := by
  have hi : homePhase i ≠ none := by simp [homePhase_of_decode hp hword]
  have hdel : t.delivered = s.delivered := (exec_effect ht).delivered_eq fun hpop => hi (hpop ▸ rfl)
  have hen' := (enabled_withOutput hp hwait [] (s.delivered ++ s.hq) [] none).trans hen
  rw [drain_eq hwait]
  obtain ⟨ps, hps, hx⟩ | ⟨-, -, hphase, hkept, q, hpay, hx⟩ :=
    (h.consumeSymbol p).exec_withOutput_of_room (q := []) ht hi h.handoffDepth_pos (s.delivered ++ s.hq) []
  · refine ⟨p, i, _, hp, hen', hword, (exec_of_report hi _ none).trans hx, (drain_withOutput ?_ [] t.report).symm⟩
    simp [hps, hdel]
  · have hall : s.delivered ++ s.hq ++ [] = t.delivered ++ t.hq := by simp [hkept, hdel]
    exact ⟨p, i, _, hp, hen', hword, (exec_of_report hi _ none).trans hx,
      (drain_of_push hphase hpay hall [] t.report).symm⟩

theorem drain_of_emitPush {s t : State} (h : exec .emitPush s = .next t) : t.drain = s.drain := by
  obtain ⟨-, ⟨hp, -, p, hpay, rfl⟩ | ⟨-, rfl⟩⟩ := execEmitPush_next.mp h
  · exact drain_of_push hp hpay rfl s.agenda none
  · exact drain_of_turn s s.agenda none

theorem drain_of_pop {s t : State} (hr : s.phase.isReserved = false) (h : exec .pop s = .next t) :
    t.drain = s.drain := by
  cases (execPop_eq s).symm.trans h
  rw [begin_eq hr]
  exact drain_withOutput (by cases s.hq <;> simp) s.agenda none

/-- A step without RESET leaves the drained state alone, or advances it. -/
theorem Inv.drain_step {s t : State} (h : Inv s) (hreset : s.nextPort ≠ .reset) (hstep : step s = .next t) :
    t.drain = s.drain ∨ Advances s.drain t.drain := by
  have hdrop : s.dropTurn.drain = s.drain := drain_of_turn s s.agenda.tail s.report
  obtain rfl | ⟨i, hf, he⟩ := h.step_cases hstep
  · exact .inl (drain_of_turn s _ none)
  · rw [← hdrop]
    cases hp : s.nextPort with
    | reset => exact absurd hp hreset
    | pop =>
      rw [hp] at hf he
      cases (decodeWord_pop _ _).symm.trans (fetch_some hf)
      exact .inl (drain_of_pop h.phase he)
    | internal =>
      rw [hp] at hf he
      obtain ⟨hphase, rfl⟩ | ⟨-, rfl⟩ := decodeWord_internal.mp (fetch_some hf)
      · have hen := (enabled_of_fetch_internal hf).resolve_right (by simp)
        exact .inr (h.dropTurn.drain_advances (.inl rfl) (hphase ▸ by decide) hen (fetch_some hf) he)
      · exact .inl (drain_of_emitPush he)
    | input =>
      rw [hp] at hf he
      have hen := enabled_of_fetch_input hf
      have hwait : s.dropTurn.phase ≠ .emitWait := by
        intro hphase
        rw [dropTurn_phase] at hphase
        simp [State.enabled, State.inReady, hphase] at hen
      exact .inr (h.dropTurn.drain_advances (.inr rfl) hwait hen (fetch_some hf) he)

theorem nextPort_ne_reset {s : State} (h : .reset ∉ s.agenda) : s.nextPort ≠ .reset := by
  intro hp
  have hhead := head_of_nextPort (s := s) (by simp [hp]) (by simp [hp])
  exact h (hp ▸ List.mem_of_head? hhead)

/-- A run without RESET is, drained, a run of the drained block. -/
theorem Inv.drain_reaches {s t : State} (h : Inv s) (hreset : .reset ∉ s.agenda) (hreach : Reaches s t) :
    Inv t ∧ .reset ∉ t.agenda ∧ Relation.ReflTransGen Advances s.drain t.drain := by
  induction hreach with
  | refl => exact ⟨h, hreset, .refl⟩
  | tail _ hstep ih =>
    obtain ⟨hinv, hno, hrun⟩ := ih
    refine ⟨everyStepKeepsInvariants _ _ hinv hstep, ?_, ?_⟩
    · rw [hinv.step_agenda hstep]
      exact fun hmem => hno (List.mem_of_mem_tail hmem)
    · obtain heq | hadv := hinv.drain_step (nextPort_ne_reset hno) hstep
      · rwa [heq]
      · exact hrun.tail hadv

theorem drain_of_outEnd {s : State} (h : Inv s) (hend : s.outEnd = true) :
    s.drain.phase = .done ∧ s.drain.delivered = s.delivered := by
  obtain ⟨hdone, hq⟩ : s.seqDone = true ∧ s.hq = [] := by simpa [State.outEnd] using hend
  have hphase : s.phase = .done := h.finished.mp hdone
  simp [State.drain, State.held, hphase, hq]

/-- Settles O58: the drained block has one run, and it comes to rest in DONE. -/
theorem outputIndependentOfSchedule : Obligations.OutputIndependentOfSchedule := by
  unfold Obligations.OutputIndependentOfSchedule
  intro s t u a b h ha hb ht hu htend huend
  obtain ⟨hinvt, -, hrunt⟩ := (h.with_agents s.upstream a).drain_reaches ha ht
  obtain ⟨hinvu, -, hrunu⟩ := (h.with_agents s.upstream b).drain_reaches hb hu
  have hstart (c : List Port) : ({ s with agenda := c } : State).drain = s.drain := drain_of_turn s c s.report
  rw [hstart] at hrunt hrunu
  obtain ⟨htdone, htdel⟩ := drain_of_outEnd hinvt htend
  obtain ⟨hudone, hudel⟩ := drain_of_outEnd hinvu huend
  have heq : t.drain = u.drain := by
    obtain hrun | hrun := hrunt.total_of_right_unique advances_rightUnique hrunu
    · exact ((Relation.reflTransGen_iff_eq (not_advances_of_done htdone)).mp hrun).symm
    · exact (Relation.reflTransGen_iff_eq (not_advances_of_done hudone)).mp hrun
  have hlog : t.drain.reportLog = u.drain.reportLog := by rw [heq]
  exact ⟨by rw [← htdel, ← hudel, heq], hlog⟩

end Sys2Proof.Machine

namespace Sys2Proof.Machine

/-! ### A fair schedule ends the sequence (70_reset_and_hazards.md R182, 42_handoff_control.md R136) -/

/-- The sequence is over, or the stream still holds its end. -/
def State.EndComing (s : State) : Prop := s.phase = .done ∨ ∃ x ∈ s.upstream, x.getLsbD 8 = true

/-- A bound on the rounds of one turn for each agent that are left until `out_end`: the payloads to deliver and, before
DONE, the entries to build, the payload held back and the symbols offered. -/
def State.roundsLeft (s : State) : Nat :=
  s.hq.length +
    match s.phase with
    | .done => 0
    | .init => 256 - s.buildIdx.toNat + s.upstream.length
    | .emitWait => 1 + s.upstream.length
    | _ => s.upstream.length

theorem roundsLeft_le (s : State) : s.roundsLeft ≤ 256 + s.upstream.length + s.hq.length + 1 := by
  unfold State.roundsLeft
  split <;> omega

theorem Inv.outEnd_of_roundsLeft {s : State} (h : Inv s) (hc : s.EndComing) (hz : s.roundsLeft = 0) :
    s.outEnd = true := by
  obtain ⟨hq, hwork⟩ := Nat.add_eq_zero_iff.mp hz
  have hdone : s.phase = .done := by
    by_contra hp
    obtain ⟨x, hx, -⟩ := hc.resolve_left hp
    have hpos : 0 < s.upstream.length := List.length_pos_of_mem hx
    split at hwork
    · exact hp ‹_›
    all_goals omega
  simp [State.outEnd, h.finished.mpr hdone, List.length_eq_zero_iff.mp hq]

/-! #### What an operation does to the bound -/

theorem roundsLeft_buildEntry {s : State} (hp : s.phase = .init) (hlt : s.buildIdx.toNat < 256) :
    (buildEntry s).roundsLeft < s.roundsLeft := by
  rw [buildEntry_eq hp hlt]
  have hval : (BitVec.ofNat 9 (s.buildIdx.toNat + 1)).toNat = s.buildIdx.toNat + 1 := by bv_omega
  by_cases hlast : s.buildIdx.toNat = 255
  · simp [State.roundsLeft, hp, hlast]
  · simp [State.roundsLeft, hp, hlast, hval]
    omega

/-- Only TR_EOL on a verified frame adds to the bound, by one, and leaves a payload to deliver. -/
theorem OpEffect.roundsLeft_le {i : Instr} {s t : State} (h : OpEffect i s t) (hs : Inv s) (hi : i ≠ .reset) :
    t.roundsLeft ≤ s.roundsLeft ∨ (t.hq ≠ [] ∧ t.roundsLeft ≤ s.roundsLeft + 1) := by
  cases h with
  | reset => exact absurd rfl hi
  | idle _ | popEmpty _ => exact .inl le_rfl
  | pop hq => exact .inl (by simp [State.roundsLeft, hq])
  | build hp => exact .inl (roundsLeft_buildEntry (s := { s with report := none }) hp (hs.building hp)).le
  | verified hp _ _ _ _ => exact .inr ⟨by simp, by simp [State.roundsLeft, hp]; omega⟩
  | verifiedFull hp _ _ hq =>
    have hfull : s.hq ≠ [] := fun hnil => hq (by simpa [hnil] using hs.handoffDepth_pos)
    exact .inr ⟨hfull, by simp [State.roundsLeft, hp]; omega⟩
  | emit hp _ _ => exact .inl (by simp [State.roundsLeft, hp]; omega)
  | start hp _ _ | startEos hp | accum hp _ _ | accumOverflow hp _ | terminate hp _ _ | terminateOverflow hp _
  | endEos hp | wrongLength hp _ | wrongDigits hp _ _ | trailerEos hp | trailerByte hp =>
    exact .inl (by simp [State.roundsLeft, hp])

/-! #### The symbol that ends the stream -/

/-- End-of-stream leads to DONE from every phase that takes an input (41_frame_extractor.md R103, R107, R112). -/
theorem phase_done_of_endSymbol {s t : State} {f : Phase} {d : Byte} {i : Instr} (hf : s.phase = f)
    (hword : decodeWord (opWordOf .input f (symbolOf true d)) = .ok i) (h : exec i s = .next t) : t.phase = .done := by
  obtain ⟨rfl, rfl⟩ | ⟨rfl, rfl⟩ | ⟨rfl, rfl⟩ := decodeWord_input.mp hword
  · obtain ⟨-, ⟨-, rfl⟩ | ⟨hne, -⟩⟩ := execSsEos_next.mp h
    · rfl
    · exact absurd hf hne
  · obtain ⟨-, ⟨-, rfl⟩ | ⟨hne, -⟩⟩ := execSeEos_next.mp h
    · rfl
    · exact absurd hf hne
  · obtain ⟨-, ⟨-, rfl⟩ | ⟨hne, -⟩⟩ := execTrEos_next.mp h
    · rfl
    · exact absurd hf hne

/-- The turn that consumes a symbol comes to DONE, if the symbol ends the stream. -/
theorem phase_done_of_consumed {s t : State} {x : Symbol} {rest : List Symbol} {i : Instr}
    (hup : s.upstream = x :: rest) (hx : x.getLsbD 8 = true) (hword : decodeWord (s.opWord .input) = .ok i)
    (h : exec i (s.consumeSymbol .input) = .next t) : t.phase = .done := by
  obtain ⟨e, d, rfl⟩ := exists_symbolOf x
  obtain rfl : e = true := by simpa using hx
  rw [opWord_eq, if_pos rfl, hup, List.headD_cons] at hword
  exact phase_done_of_endSymbol (s := s.consumeSymbol .input) rfl hword h

/-- A step without RESET keeps the end of the stream in sight. -/
theorem Inv.endComing_of_step {s t : State} (h : Inv s) (hc : s.EndComing) (hreset : s.nextPort ≠ .reset)
    (hstep : step s = .next t) : t.EndComing := by
  obtain hdone | ⟨x, hx, heos⟩ := hc
  · obtain ⟨-, -, u, hu, hphase, -⟩ := doneIsTerminal s hdone hreset
    cases hu.symm.trans hstep
    exact .inl hphase
  · obtain rfl | ⟨i, hf, he⟩ := h.step_cases hstep
    · exact .inr ⟨x, hx, heos⟩
    · have hup := (exec_effect he).upstream_eq
      by_cases hp : s.nextPort = .input
      · rw [hp] at hf he hup
        obtain ⟨y, rest, hcons⟩ := List.exists_cons_of_ne_nil (List.ne_nil_of_mem hx)
        obtain rfl | hmem := List.mem_cons.mp (hcons ▸ hx)
        · exact .inl (phase_done_of_consumed (s := s.dropTurn) hcons heos (fetch_some hf) he)
        · exact .inr ⟨x, by simpa [hup, hcons] using hmem, heos⟩
      · exact .inr ⟨x, by simpa [hup, hp] using hx, heos⟩

/-! #### One turn of each agent -/

theorem Inv.step_eq_exec {s : State} (h : Inv s) {i : Instr} (hup : s.nextPort = .input → s.upstream ≠ [])
    (hword : decodeWord (s.opWord s.nextPort) = .ok i) :
    step s = exec i (s.dropTurn.consumeSymbol s.nextPort) := by
  obtain ⟨t, ht⟩ := (h.dropTurn.consumeSymbol s.nextPort).exec_total i
  rw [step_of_decode hup (fun _ => h.noFault) hword, ht, settle_of_next]

theorem Inv.waits {s t : State} (h : Inv s) (hdis : s.enabled s.nextPort = false) (hstep : step s = .next t) :
    t = { s with report := none, agenda := s.agenda.tail } :=
  Host.Outcome.next.inj (hstep.symm.trans (disabledTurnWaits s h.phase hdis))

/-- A turn of the engine does not add to the bound. Where nothing is left to deliver after it, it has built an entry, or
the upstream has a step, or the sequence is over. -/
theorem Inv.internal_turn {s t : State} (h : Inv s) (hc : s.EndComing) (hp : s.nextPort = .internal)
    (hstep : step s = .next t) :
    t.roundsLeft ≤ s.roundsLeft ∧
      (t.hq = [] → t.roundsLeft < s.roundsLeft ∨ t.enabled .input = true ∨ t.phase = .done) := by
  have hexec {i : Instr} (hword : decodeWord (s.opWord .internal) = .ok i) :
      exec i (s.dropTurn.consumeSymbol .internal) = .next t := by
    rw [← hstep, ← hp]
    exact (h.step_eq_exec (by simp [hp]) (by rwa [hp])).symm
  cases hphase : s.phase with
  | init =>
    have he := hexec (decodeWord_internal.mpr (.inl ⟨hphase, rfl⟩))
    obtain ⟨-, ⟨-, rfl⟩ | ⟨hne, -⟩⟩ := execInitBuild_next.mp he
    · have hlt := roundsLeft_buildEntry (s := { s.dropTurn with report := none }) hphase (h.building hphase)
      exact ⟨hlt.le, fun _ => .inl hlt⟩
    · exact absurd hphase hne
  | emitWait =>
    have he := hexec (decodeWord_internal.mpr (.inr ⟨hphase, rfl⟩))
    obtain ⟨-, ⟨-, -, p, -, rfl⟩ | ⟨hno, rfl⟩⟩ := execEmitPush_next.mp he
    · exact ⟨by simp [State.roundsLeft, hphase]; omega, by simp⟩
    · have hfull : s.hq ≠ [] := fun hq => hno.elim (· hphase) (· (by simpa [hq] using h.handoffDepth_pos))
      exact ⟨le_rfl, fun hq => absurd hq hfull⟩
  | done =>
    obtain rfl := h.waits (by simp [hp, State.enabled, hphase]) hstep
    exact ⟨le_rfl, fun _ => .inr (.inr hphase)⟩
  | seekStart | seekEnd | trailer =>
    obtain rfl := h.waits (by simp [hp, State.enabled, hphase]) hstep
    obtain ⟨x, hx, -⟩ := hc.resolve_left (by simp [hphase])
    have hup : s.inValid = true := by simpa [State.inValid] using List.ne_nil_of_mem hx
    have hready : s.inReady = true := by simp [State.inReady, hphase]
    have hen : s.enabled .input = true := by simp [State.enabled, not_halted h.phase h.noFault, hup, hready]
    exact ⟨le_rfl, fun _ => .inr (.inl hen)⟩
  | reserved6 | reserved7 => exact absurd h.phase (by simp [hphase, Phase.isReserved])

theorem roundsLeft_consumeSymbol {s : State} (hready : s.inReady = true) (hup : s.upstream ≠ []) :
    (s.dropTurn.consumeSymbol .input).roundsLeft + 1 = s.roundsLeft := by
  have hpos : 0 < s.upstream.length := List.length_pos_of_ne_nil hup
  simp only [State.inReady, Bool.or_eq_true, beq_iff_eq] at hready
  obtain (hp | hp) | hp := hready <;> simp [State.roundsLeft, hp] <;> omega

/-- A turn of the upstream does not add to the bound. Where nothing is left to deliver after it, there was nothing
before, and a symbol that it consumed is one less. -/
theorem Inv.input_turn {s t : State} (h : Inv s) (hp : s.nextPort = .input) (hstep : step s = .next t) :
    t.roundsLeft ≤ s.roundsLeft ∧
      (t.hq = [] → s.hq = [] ∧ (s.enabled .input = true → t.roundsLeft < s.roundsLeft)) := by
  cases hen : s.enabled .input with
  | false =>
    obtain rfl := h.waits (by rwa [hp]) hstep
    exact ⟨le_rfl, fun hq => ⟨hq, by simp⟩⟩
  | true =>
    simp only [State.enabled, Bool.and_eq_true] at hen
    obtain ⟨⟨-, hoffered⟩, hready⟩ := hen
    have hup : s.upstream ≠ [] := by simpa [State.inValid] using hoffered
    obtain ⟨i, hword, hreset⟩ := exists_decode_of_inReady hready
    have he : OpEffect i (s.dropTurn.consumeSymbol .input) t := by
      rw [h.step_eq_exec (fun _ => hup) (by rwa [hp]), hp] at hstep
      exact exec_effect hstep
    have hpop : i ≠ .pop := by
      rintro rfl
      cases homePhase_of_decode (.inr rfl) hword
    have hone := roundsLeft_consumeSymbol hready hup
    have hle := he.roundsLeft_le (h.dropTurn.consumeSymbol .input) hreset
    refine ⟨by omega, fun hq => ⟨?_, fun _ => ?_⟩⟩
    · obtain hall | ⟨p, -, hall, -⟩ := he.delivered_append_hq hreset
      · simpa [he.delivered_eq hpop, hq] using hall
      · simp [he.delivered_eq hpop, hq] at hall
    · have hno := hle.resolve_right (fun hpush => hpush.1 hq)
      omega

/-- A turn of the consumer takes a payload off the bound, if there is one. -/
theorem roundsLeft_of_pop {s t : State} (hp : s.nextPort = .pop) (hstep : step s = .next t) :
    t.roundsLeft ≤ s.roundsLeft ∧ (s.hq ≠ [] → t.roundsLeft < s.roundsLeft) := by
  rw [step_of_pop hp, execPop_eq] at hstep
  cases hstep
  refine ⟨by simp [State.roundsLeft], fun hq => ?_⟩
  have hpos : 0 < s.hq.length := List.length_pos_of_ne_nil hq
  simp [State.roundsLeft]
  omega

/-! #### A round, and the whole run -/

/-- A turn that the agenda lists, if it is no RESET, keeps the invariants and the end of the stream in sight. -/
theorem Inv.turn {s : State} {p : Port} {rest : List Port} (h : Inv s) (hc : s.EndComing) (ha : s.agenda = p :: rest)
    (hp : p ≠ .reset) :
    s.nextPort = p ∧ ∃ t, step s = .next t ∧ Inv t ∧ t.EndComing ∧ t.agenda = rest := by
  have hport : s.nextPort = p := by rw [State.nextPort, ha]
  obtain ⟨t, ht⟩ := step_total s
  refine ⟨hport, t, ht, everyStepKeepsInvariants s t h ht, h.endComing_of_step hc (by rwa [hport]) ht, ?_⟩
  rw [h.step_agenda ht, ha, List.tail_cons]

/-- A turn of each agent brings the end nearer, until it has come. -/
theorem Inv.round {s : State} {rest : List Port} (h : Inv s) (hc : s.EndComing)
    (ha : s.agenda = .internal :: .input :: .pop :: rest) :
    ∃ t, runSteps 3 s = .next t ∧ Inv t ∧ t.EndComing ∧ t.agenda = rest ∧ t.roundsLeft ≤ s.roundsLeft - 1 := by
  obtain ⟨hp, t, ht, hinv, hct, hat⟩ := h.turn hc ha (by decide)
  obtain ⟨hp', u, hu, hinv', hcu, hau⟩ := hinv.turn hct hat (by decide)
  obtain ⟨hp'', v, hv, hinv'', hcv, hav⟩ := hinv'.turn hcu hau (by decide)
  refine ⟨v, ?_, hinv'', hcv, hav, ?_⟩
  · rw [runSteps_succ ht, runSteps_succ hu, runSteps_succ hv]
    rfl
  · obtain ⟨hle, hengine⟩ := h.internal_turn hc hp ht
    obtain ⟨hle', hinput⟩ := hinv.input_turn hp' hu
    obtain ⟨hle'', hpop⟩ := roundsLeft_of_pop hp'' hv
    by_cases hq : u.hq = []
    · obtain ⟨htq, hconsumed⟩ := hinput hq
      obtain hlt | hen | hdone := hengine htq
      · omega
      · have hlt := hconsumed hen
        omega
      · have hzero : t.roundsLeft = 0 := by simp [State.roundsLeft, htq, hdone]
        omega
    · have hlt := hpop hq
      omega

theorem Inv.rounds {s : State} {n : Nat} (h : Inv s) (hc : s.EndComing) (hn : s.roundsLeft ≤ n)
    (ha : s.agenda = (List.replicate n [Port.internal, .input, .pop]).flatten) :
    ∃ t, runSteps (3 * n) s = .next t ∧ t.outEnd = true := by
  induction n generalizing s with
  | zero => exact ⟨s, rfl, h.outEnd_of_roundsLeft hc (Nat.le_zero.mp hn)⟩
  | succ n ih =>
    obtain ⟨t, ht, hinv, hct, hat, hle⟩ := h.round hc (rest := (List.replicate n [_, _, _]).flatten) ha
    obtain ⟨u, hu, hend⟩ := ih hinv hct (by omega) hat
    exact ⟨u, by rw [Nat.mul_succ, Nat.add_comm, runSteps_add ht, hu], hend⟩

/-- Settles O59: the given number of rounds is no less than the bound. -/
theorem fairTurnsReachEndOfSequence : Obligations.FairTurnsReachEndOfSequence := by
  unfold Obligations.FairTurnsReachEndOfSequence
  exact fun s n h hc hn ha => h.rounds hc ((roundsLeft_le s).trans hn) ha

end Sys2Proof.Machine

namespace Sys2Proof.Machine

/-! ### INIT builds the whole table (70_reset_and_hazards.md R172, 40_crc_engine.md R82) -/

/-- Every entry below `build_idx` holds its value. -/
def State.BuiltSoFar (s : State) : Prop :=
  ∀ i : Byte, i.toNat < s.buildIdx.toNat → Memory.read s.table i.toNat = some (tableEntry i)

theorem State.BuiltSoFar.buildEntry {s : State} (h : s.BuiltSoFar) (hp : s.phase = .init)
    (hlt : s.buildIdx.toNat < 256) : (buildEntry s).BuiltSoFar := by
  rw [buildEntry_eq hp hlt]
  intro i hi
  rw [memory_read_write]
  split
  · next heq => rw [heq, BitVec.ofNat_toNat, BitVec.setWidth_eq]
  · next hne =>
    have hnext : (BitVec.ofNat 9 (s.buildIdx.toNat + 1)).toNat = s.buildIdx.toNat + 1 := by bv_omega
    exact h i (by dsimp only at hi; omega)

/-- In INIT the turn is the engine's, unless the agenda lists another one. -/
theorem nextPort_of_init {s : State} {m : Nat} (hp : s.phase = .init) (hf : s.faultMark = none)
    (ha : ∀ p ∈ s.agenda.take (m + 1), p = .internal) : s.nextPort = .internal := by
  cases hagenda : s.agenda with
  | cons p rest =>
    rw [State.nextPort, hagenda]
    exact ha p (by simp [hagenda])
  | nil =>
    have hen : s.enabled .internal = true := by simp [State.enabled, not_halted (s := s) (by simp [hp]) hf, hp]
    exact (emptyAgendaIsEager s hagenda).1 hen

/-- `t` is `s` with a quiet report port, but for what INIT writes and for the agenda, which is `a`. -/
def State.BuildsTo (s : State) (a : List Port) (t : State) : Prop :=
  t = { s with report := none, phase := t.phase, buildIdx := t.buildIdx, table := t.table, agenda := a }

theorem State.BuildsTo.trans {s t u : State} {a b : List Port} (h : s.BuildsTo a t) (h' : t.BuildsTo b u) :
    s.BuildsTo b u := by
  unfold State.BuildsTo at h h'
  exact h'.trans (by rw [h])

/-- A turn of the engine in INIT builds the next entry, and the last one opens the stream. -/
theorem step_init {s : State} {m : Nat} (hp : s.phase = .init) (hlt : s.buildIdx.toNat < 256)
    (hbuilt : s.BuiltSoFar) (hf : s.faultMark = none) (ha : ∀ p ∈ s.agenda.take (m + 1), p = .internal) :
    ∃ t, step s = .next t ∧ s.BuildsTo s.agenda.tail t ∧ t.BuiltSoFar ∧
      t.buildIdx = BitVec.ofNat 9 (s.buildIdx.toNat + 1) ∧
      t.phase = if s.buildIdx.toNat = 255 then .seekStart else .init := by
  have hturn : s.nextPort = .internal := nextPort_of_init hp hf ha
  have hword : decodeWord (s.opWord s.nextPort) = .ok .initBuild := by
    rw [hturn]
    exact decodeWord_internal.mpr (.inl ⟨hp, rfl⟩)
  obtain ⟨hexec, -, -⟩ := stepRunsDecodedOperation s _ .initBuild (by simp [hturn]) (fun _ => hf) hword rfl
  rw [hturn] at hexec
  have hstep : step s = .next (buildEntry { s with report := none, agenda := s.agenda.tail }) :=
    hexec _ (execInitBuild_next.mpr ⟨by simp [hp], .inl ⟨hp, rfl⟩⟩)
  have hentry := buildEntry_eq (s := { s with report := none, agenda := s.agenda.tail }) hp hlt
  exact ⟨_, hstep, rfl, State.BuiltSoFar.buildEntry hbuilt hp hlt, by rw [hentry], by rw [hentry]⟩

/-- From INIT with `m + 1` entries left to build, as many turns of the engine build them. -/
theorem runSteps_init {m : Nat} {s : State} (hp : s.phase = .init) (hidx : s.buildIdx.toNat + (m + 1) = 256)
    (hbuilt : s.BuiltSoFar) (hf : s.faultMark = none) (ha : ∀ p ∈ s.agenda.take (m + 1), p = .internal) :
    ∃ t, runSteps (m + 1) s = .next t ∧ s.BuildsTo (s.agenda.drop (m + 1)) t ∧ t.BuiltSoFar ∧ t.buildIdx = 256 ∧
      t.phase = .seekStart := by
  induction m generalizing s with
  | zero =>
    obtain ⟨t, ht, hsame, hbuilt', hnext, hphase⟩ := step_init hp (by omega) hbuilt hf ha
    have hlast : s.buildIdx.toNat = 255 := by omega
    rw [hlast] at hnext hphase
    exact ⟨t, runSteps_succ ht 0, by rwa [Nat.zero_add, List.drop_one], hbuilt', hnext, hphase⟩
  | succ m ih =>
    obtain ⟨t, ht, hsame, hbuilt', hnext, hphase⟩ := step_init hp (by omega) hbuilt hf ha
    rw [if_neg (by omega)] at hphase
    have hval : t.buildIdx.toNat = s.buildIdx.toNat + 1 := by
      rw [hnext, BitVec.toNat_ofNat]
      omega
    have htail : t.agenda = s.agenda.tail := by rw [hsame]
    have hlisted : ∀ p ∈ t.agenda.take (m + 1), p = .internal := fun p hp =>
      ha p (List.mem_of_mem_tail (by rwa [List.tail_take_eq_take_tail, ← htail]))
    obtain ⟨u, hu, hsame', hend⟩ := ih hphase (by omega) hbuilt' (by rw [hsame, hf]) hlisted
    refine ⟨u, (runSteps_succ ht _).trans hu, ?_, hend⟩
    rw [htail, ← List.tail_drop_eq_drop_tail, List.tail_drop] at hsame'
    exact hsame.trans hsame'

/-- Settles O14. -/
theorem initTakes256StepsToFullTable : Obligations.InitTakes256StepsToFullTable := by
  unfold Obligations.InitTakes256StepsToFullTable
  intro s hp hidx hf ha
  obtain ⟨t, ht, hrest, hbuilt, hfull, hphase⟩ :=
    runSteps_init (m := 255) hp (by simp [hidx]) (fun i hi => by simp [hidx] at hi) hf ha
  refine ⟨t, ht, hphase, by simp [State.inReady, hphase], ⟨by simp [State.tableValid, hfull], fun i => ?_⟩, hrest⟩
  exact hbuilt i (by simpa [hfull] using i.isLt)

end Sys2Proof.Machine
